-- ==== Sys2Proof/Word.lean ====
section
/-! DEFINITION. The widths of the block: bytes, bus addresses, command words, and a one-bit field made from a Bool. -/

namespace Sys2Proof

/-- One byte, bit 0 of weight 1 (00_scope.md R8). -/
abbrev Byte := BitVec 8

/-- A bus address of `ADDR_WIDTH` = 7 bits, the default of 00_scope.md R7 (PRESUMED, G1; log 12). -/
abbrev Addr := BitVec 7

/-- A one-bit field: 1 for true. -/
abbrev bit (b : Bool) : BitVec 1 := BitVec.ofBool b

end Sys2Proof
end

