-- ==== Sys2Proof/Config.lean ====
section
/-! DEFINITION. The constants the source fixes (00_scope.md R6), the parameters it leaves open (R7), the input ports, and
the free values: what the environment does when nothing is fixed about it (41_transport_engine.md R123). -/

namespace Sys2Proof

/-- What makes a verification probe succeed: `VERIFY_PROBE_SUCCESS` (R7, R133, D14). -/
inductive ProbeSuccess where
  /-- the round trip completed and passed validation (the default) -/
  | validated
  /-- the round trip completed -/
  | completed
deriving DecidableEq, Repr, Inhabited

/-- The open parameters of 00_scope.md R7. -/
structure Params where
  /-- `BUS_ADDR`, the value of `address` -/
  busAddr : Addr
  /-- `BACKOFF_VERIFY_READ`, in further steps of the backoff state -/
  backoffVerifyRead : Nat
  /-- `BACKOFF_KEYWRITE` -/
  backoffKeyWrite : Nat
  /-- `BACKOFF_ATTEMPT` -/
  backoffAttempt : Nat
  /-- `PRESSED_CAP`; `none` is the reference value, unbounded (10_state.md R26) -/
  pressedCap : Option Nat
  /-- `VERIFY_PROBE_SUCCESS` -/
  probeSuccess : ProbeSuccess
deriving DecidableEq, Repr, Inhabited

/-- What stands on the block's input ports during one step (30_encoding.md R85). One event at most (log 29). -/
inductive Input where
  /-- nothing is presented: `rst`, `cmd_valid` and `t_done` are 0 -/
  | quiet
  /-- `rst` = 1 -/
  | rst
  /-- `cmd_valid` = 1 with this `cmd_word` -/
  | cmd (word : BitVec 16)
  /-- `t_done` = 1 with this `t_err` and `t_rdata` -/
  | done (err : Bool) (rdata : Byte)
  /-- a new input vector ENC_IN at the encoder -/
  | encIn (vector : BitVec 11)
  /-- a new input vector VAL_IN at the validator -/
  | valIn (vector : BitVec 24)
deriving DecidableEq, Repr, Inhabited

namespace Config

/-- `IDENTITY`, the device identity byte (R6, 30_encoding.md R78). -/
def identity : Byte := 0x82#8

/-- `MAX_ATTEMPTS` (R6). -/
def maxAttempts : Nat := 10

/-- `BUS_ADDR`: the spec gives no value (R7, D19); free (log 12). -/
opaque busAddr : Addr

/-- `BACKOFF_VERIFY_READ`: no duration is given (R7, D16); free (log 11). -/
opaque backoffVerifyRead : Nat

/-- `BACKOFF_KEYWRITE`: neither presence nor length is given (R7, D16, N7); free (log 11). -/
opaque backoffKeyWrite : Nat

/-- `BACKOFF_ATTEMPT`: neither presence nor length is given (R7, D16, N7); free (log 11). -/
opaque backoffAttempt : Nat

/-- The n-th input that is drawn when no input is fixed: any host, any transport, any reset (R123, D25; log 2). -/
opaque freeInput : Nat → Input

/-- The parameters at reset: the open ones free, the two with a default at it (logs 13, 14). -/
def params : Params where
  busAddr := busAddr
  backoffVerifyRead := backoffVerifyRead
  backoffKeyWrite := backoffKeyWrite
  backoffAttempt := backoffAttempt
  pressedCap := none
  probeSuccess := .validated

end Config

end Sys2Proof
end

