-- ==== Sys2Proof/Syntax.lean ====
section
/-! DEFINITION. The operations of spec/opcode_table.json, one constructor per row, over the source's own types. -/

namespace Sys2Proof

/-- ActionKind (30_encoding.md R73). -/
inductive ActionKind where
  | test
  | press
  | release
  | releaseAll
deriving DecidableEq, Repr, Inhabited

/-- The 2-bit code of an ActionKind, bits 5:4 of the action byte (R73). -/
def ActionKind.code : ActionKind → BitVec 2
  | .test => 0#2
  | .press => 1#2
  | .release => 2#2
  | .releaseAll => 3#2

/-- The response status; the codes 4 to 7 are never produced and have no constructor (30_encoding.md R84, U11). -/
inductive Status where
  | done
  | notVerified
  | transportAborted
  | illegalCmd
deriving DecidableEq, Repr, Inhabited

/-- The 3-bit code of a status (R84). -/
def Status.code : Status → BitVec 3
  | .done => 0#3
  | .notVerified => 1#3
  | .transportAborted => 2#3
  | .illegalCmd => 3#3

/-- The rows of spec/opcode_table.json. LED and flag operands are true for On, for 1. -/
inductive Instr where
  /-- VERIFY (R131) -/
  | verify
  /-- KEYACTION key, action, led (R130) -/
  | keyaction (key : Byte) (action : ActionKind) (led : Bool)
  /-- PRESS key (R160) -/
  | press (key : Byte)
  /-- RELEASE key (R161) -/
  | release (key : Byte)
  /-- RELEASEALL (R162) -/
  | releaseall
  /-- KBDEN (R164) -/
  | kbden
  /-- ENCODE key, action, led (R100) -/
  | encode (key : Byte) (action : ActionKind) (led : Bool)
  /-- VALIDATE key, actionByte, confirm (R104) -/
  | validate (key actionByte confirm : Byte)
  /-- BUSWRITE data, with the address the transport port carries (R121) -/
  | buswrite (addr : Addr) (data : Byte)
  /-- BUSREAD, with the address the transport port carries (R122) -/
  | busread (addr : Addr)
  /-- FRAME: the two bytes of a key action (R71) -/
  | frame (key : Byte) (parity led : Bool) (action : ActionKind) (checksum : BitVec 4)
  /-- ACTION_BYTE.Test (R72, R73) -/
  | actionByteTest (parity led : Bool) (checksum : BitVec 4)
  /-- ACTION_BYTE.Press -/
  | actionBytePress (parity led : Bool) (checksum : BitVec 4)
  /-- ACTION_BYTE.Release -/
  | actionByteRelease (parity led : Bool) (checksum : BitVec 4)
  /-- ACTION_BYTE.ReleaseAll -/
  | actionByteReleaseAll (parity led : Bool) (checksum : BitVec 4)
  /-- CONFIRM: the confirmation byte (R77) -/
  | confirm (parity error switch led : Bool) (checksum : BitVec 4)
  /-- IDENTITY: the identity byte (R78) -/
  | identity
  /-- RSP: the response a finished command presents (R84) -/
  | rsp (status : Status) (flag ok : Bool) (err : BitVec 3) (confirm : Byte)
deriving DecidableEq, Repr

end Sys2Proof
end

