-- ==== Sys2Proof/Machine/Operands.lean ====
section
/-! DEFINITION. Operand forms: how the fields of a word, a byte or a vector are put together and taken apart
(30_encoding.md R71, R72, R77, R79, R80, R84, R85). -/

namespace Sys2Proof.Machine

/-- The ActionKind of a 2-bit code; all four are assigned (R73). -/
def actionOfCode (c : BitVec 2) : ActionKind :=
  if c = 0#2 then .test else if c = 1#2 then .press else if c = 2#2 then .release else .releaseAll

/-- The status of a 3-bit code; 4 to 7 have none (R84). -/
def statusOfCode (c : BitVec 3) : Option Status :=
  if c = 0#3 then some .done
  else if c = 1#3 then some .notVerified
  else if c = 2#3 then some .transportAborted
  else if c = 3#3 then some .illegalCmd
  else none

/-- An action byte from its fields P, L, A, CK (R72). -/
def packActionByte (parity led : Bool) (action : ActionKind) (checksum : BitVec 4) : Byte :=
  bit parity ++ bit led ++ action.code ++ checksum

/-- A confirmation byte from its fields P, E, S, L, CK (R77). -/
def packConfirm (parity error switch led : Bool) (checksum : BitVec 4) : Byte :=
  bit parity ++ bit error ++ bit switch ++ bit led ++ checksum

/-- A frame in transmission order: the key id byte, then the action byte (R71). -/
def packFrame (key actionByte : Byte) : BitVec 16 :=
  key ++ actionByte

/-- A command word from OP, LED, ACT, KEY, with bit 11 zero (R80). -/
def packCmd (op : BitVec 4) (led : Bool) (action : BitVec 2) (key : Byte) : BitVec 16 :=
  op ++ 0#1 ++ bit led ++ action ++ key

/-- ENC_IN (R85). -/
def packEncIn (led : Bool) (action : ActionKind) (key : Byte) : BitVec 11 :=
  bit led ++ action.code ++ key

/-- VAL_IN (R85). -/
def packValIn (key actionByte confirm : Byte) : BitVec 24 :=
  key ++ actionByte ++ confirm

/-- A write request at the transport port: `t_rw` = 0, `t_addr`, `t_wdata` (R85, R121). -/
def packTportWrite (addr : Addr) (data : Byte) : BitVec 16 :=
  0#1 ++ addr ++ data

/-- A read request at the transport port: `t_rw` = 1, `t_addr`, without `t_wdata` (R85, R122; log 30). -/
def packTportRead (addr : Addr) : BitVec 8 :=
  1#1 ++ addr

/-- RSP with its `rsp_valid` bit (R84). -/
def packRsp (valid : Bool) (status : BitVec 3) (flag ok : Bool) (err : BitVec 3) (confirm : Byte) : BitVec 17 :=
  bit valid ++ status ++ bit flag ++ bit ok ++ err ++ confirm

/-- `rawAction = actionCode(a) | ledBit(l)`, bits 6:4 only (R79 step 1, 40_frame_codec.md R100 step 1). -/
def rawAction (action : ActionKind) (led : Bool) : Byte :=
  action.code.setWidth 8 * 16#8 ||| (bit led).setWidth 8 * 64#8

end Sys2Proof.Machine
end

