-- ==== Sys2Proof/Decode.lean ====
section
/-! DEFINITION. The decoder and, after it, the encoder. A word is read by the format of the line it stands on
(30_encoding.md R70): the same bits mean different things on different lines, and the machine always knows the line. -/

namespace Sys2Proof

/-- A word on one of the block's lines, in that line's own width (R70). -/
inductive PortWord where
  /-- CMD, on the command port (R80) -/
  | cmd (w : BitVec 16)
  /-- ENC_IN, at the encoder (R85) -/
  | encIn (w : BitVec 11)
  /-- VAL_IN, at the validator (R85) -/
  | valIn (w : BitVec 24)
  /-- TPORT with `t_wdata`, at the transport port (R85, R121) -/
  | tportWrite (w : BitVec 16)
  /-- TPORT without `t_wdata`, at the transport port (R85, R122) -/
  | tportRead (w : BitVec 8)
  /-- FRAME, on the bus (R71) -/
  | frame (w : BitVec 16)
  /-- ACTION_BYTE, on the bus (R72) -/
  | actionByte (w : BitVec 8)
  /-- CONFIRM, on the bus (R77) -/
  | confirm (w : BitVec 8)
  /-- IDENTITY, on the bus (R78) -/
  | identity (w : BitVec 8)
  /-- RSP, on the response port (R84) -/
  | rsp (w : BitVec 17)
deriving DecidableEq, Repr

/-- Why a word is no operation. -/
inductive DecodeError where
  /-- the command word matches no row of R81 (R82) -/
  | illegalCmd (w : BitVec 16)
  /-- `t_rw` is 1 on a write request (R121) -/
  | notAWrite (w : BitVec 16)
  /-- `t_rw` is 0 on a read request (R122) -/
  | notARead (w : BitVec 8)
  /-- the byte is not 0x82 (R78) -/
  | notIdentity (w : BitVec 8)
  /-- `rsp_valid` is 0: no response is presented (R84) -/
  | noResponse (w : BitVec 17)
  /-- the status codes 4 to 7 are never produced (R84, U11) -/
  | reservedStatus (w : BitVec 17)
deriving DecidableEq, Repr

/-- CMD (R80 to R82): OP 15:12, zero 11, LED 10, ACT 9:8, KEY 7:0; every field a command does not use is 0. -/
def decodeCmd (w : BitVec 16) : Option Instr :=
  let op := w.extractLsb' 12 4
  let key := w.extractLsb' 0 8
  if op = 1#4 ∧ w.extractLsb' 0 12 = 0#12 then some .verify
  else if op = 2#4 ∧ w.extractLsb' 11 1 = 0#1 then
    some (.keyaction key (Machine.actionOfCode (w.extractLsb' 8 2)) w[10])
  else if op = 3#4 ∧ w.extractLsb' 8 4 = 0#4 then some (.press key)
  else if op = 4#4 ∧ w.extractLsb' 8 4 = 0#4 then some (.release key)
  else if op = 5#4 ∧ w.extractLsb' 0 12 = 0#12 then some .releaseall
  else if op = 6#4 ∧ w.extractLsb' 0 12 = 0#12 then some .kbden
  else none

/-- ENC_IN: LED 10, ACT 9:8, KEY 7:0; all 2048 vectors are legal (R85, R100). -/
def decodeEncIn (w : BitVec 11) : Instr :=
  .encode (w.extractLsb' 0 8) (Machine.actionOfCode (w.extractLsb' 8 2)) w[10]

/-- VAL_IN: key 23:16, action byte 15:8, confirmation 7:0; all vectors are legal (R85, R104). -/
def decodeValIn (w : BitVec 24) : Instr :=
  .validate (w.extractLsb' 16 8) (w.extractLsb' 8 8) (w.extractLsb' 0 8)

/-- The rows ACTION_BYTE.*: P 7, L 6, A 5:4, CK 3:0 (R72, R73). -/
def decodeActionByte (w : BitVec 8) : Instr :=
  let parity := w[7]
  let led := w[6]
  let checksum := w.extractLsb' 0 4
  match Machine.actionOfCode (w.extractLsb' 4 2) with
  | .test => .actionByteTest parity led checksum
  | .press => .actionBytePress parity led checksum
  | .release => .actionByteRelease parity led checksum
  | .releaseAll => .actionByteReleaseAll parity led checksum

/-- FRAME: the key id byte 15:8, then the action byte 7:0 (R71, R72). -/
def decodeFrame (w : BitVec 16) : Instr :=
  let actionByte := w.extractLsb' 0 8
  .frame (w.extractLsb' 8 8) actionByte[7] actionByte[6] (Machine.actionOfCode (actionByte.extractLsb' 4 2))
    (actionByte.extractLsb' 0 4)

/-- CONFIRM: P 7, E 6, S 5, L 4, CK 3:0; every byte decodes (R77). -/
def decodeConfirm (w : BitVec 8) : Instr :=
  .confirm w[7] w[6] w[5] w[4] (w.extractLsb' 0 4)

/-- RSP: valid 16, status 15:13, flag 12, ok 11, err 10:8, confirm 7:0 (R84). -/
def decodeRsp (w : BitVec 17) : Except DecodeError Instr :=
  if w[16] then
    match Machine.statusOfCode (w.extractLsb' 13 3) with
    | some status =>
      .ok (.rsp status w[12] w[11] (w.extractLsb' 8 3) (w.extractLsb' 0 8))
    | none => .error (.reservedStatus w)
  else .error (.noResponse w)

/-- The operation a word on a line stands for. -/
def decode (p : PortWord) : Except DecodeError Instr :=
  match p with
  | .cmd w =>
    match decodeCmd w with
    | some i => .ok i
    | none => .error (.illegalCmd w)
  | .encIn w => .ok (decodeEncIn w)
  | .valIn w => .ok (decodeValIn w)
  | .tportWrite w =>
    if w[15] then .error (.notAWrite w) else .ok (.buswrite (w.extractLsb' 8 7) (w.extractLsb' 0 8))
  | .tportRead w => if w[7] then .ok (.busread (w.extractLsb' 0 7)) else .error (.notARead w)
  | .frame w => .ok (decodeFrame w)
  | .actionByte w => .ok (decodeActionByte w)
  | .confirm w => .ok (decodeConfirm w)
  | .identity w => if w = Config.identity then .ok .identity else .error (.notIdentity w)
  | .rsp w => decodeRsp w

/-- The word of an operation, on its own line, from the same field tables. -/
def encode (i : Instr) : PortWord :=
  match i with
  | .verify => .cmd (Machine.packCmd 1#4 false 0#2 0#8)
  | .keyaction key action led => .cmd (Machine.packCmd 2#4 led action.code key)
  | .press key => .cmd (Machine.packCmd 3#4 false 0#2 key)
  | .release key => .cmd (Machine.packCmd 4#4 false 0#2 key)
  | .releaseall => .cmd (Machine.packCmd 5#4 false 0#2 0#8)
  | .kbden => .cmd (Machine.packCmd 6#4 false 0#2 0#8)
  | .encode key action led => .encIn (Machine.packEncIn led action key)
  | .validate key actionByte confirm => .valIn (Machine.packValIn key actionByte confirm)
  | .buswrite addr data => .tportWrite (Machine.packTportWrite addr data)
  | .busread addr => .tportRead (Machine.packTportRead addr)
  | .frame key parity led action checksum =>
    .frame (Machine.packFrame key (Machine.packActionByte parity led action checksum))
  | .actionByteTest parity led checksum => .actionByte (Machine.packActionByte parity led .test checksum)
  | .actionBytePress parity led checksum => .actionByte (Machine.packActionByte parity led .press checksum)
  | .actionByteRelease parity led checksum => .actionByte (Machine.packActionByte parity led .release checksum)
  | .actionByteReleaseAll parity led checksum => .actionByte (Machine.packActionByte parity led .releaseAll checksum)
  | .confirm parity error switch led checksum => .confirm (Machine.packConfirm parity error switch led checksum)
  | .identity => .identity Config.identity
  | .rsp status flag ok err confirm => .rsp (Machine.packRsp true status.code flag ok err confirm)

/-- The line a bare number is taken to stand on. The table's rows share widths and bits, so the number alone does not
say: 16 bits are CMD where that is a legal command, else FRAME (bit 15 set), ENC_IN (only the 11 low bits used) or TPORT;
8 bits are IDENTITY, else TPORT (bit 7 set) or ACTION_BYTE; 24 bits are VAL_IN, but RSP where only bit 16 of the upper
byte is set. A width that only one row has (11, 17) names that row (DESIGN CHOICE, log 3). -/
def tableWord (nbits w : Nat) : Option PortWord :=
  if nbits = 16 then
    let cw := BitVec.ofNat 16 w
    if (decodeCmd cw).isSome then some (.cmd cw)
    else if cw[15] then some (.frame cw)
    else if cw.extractLsb' 11 5 = 0#5 then some (.encIn (cw.extractLsb' 0 11))
    else some (.tportWrite cw)
  else if nbits = 8 then
    let b := BitVec.ofNat 8 w
    if b = Config.identity then some (.identity b)
    else if b[7] then some (.tportRead b)
    else some (.actionByte b)
  else if nbits = 24 then
    let v := BitVec.ofNat 24 w
    if v.extractLsb' 16 8 = 1#8 then some (.rsp (v.extractLsb' 0 17)) else some (.valIn v)
  else if nbits = 11 then some (.encIn (BitVec.ofNat 11 w))
  else if nbits = 17 then some (.rsp (BitVec.ofNat 17 w))
  else none

/-- What the decoder reads from a table row's bits (log 3). -/
def decodeTableWord (nbits w : Nat) : Option Instr :=
  match tableWord nbits w with
  | some p =>
    match decode p with
    | .ok i => some i
    | .error _ => none
  | none => none

end Sys2Proof
end

