-- ==== Sys2Proof/Machine/Flags.lean ====
section
/-! DEFINITION. The frame codec's arithmetic: popcount, parity, checksum, the three checks of a confirmation byte
(40_frame_codec.md R100 to R110). -/

namespace Sys2Proof.Machine

/-- The number of 1 bits of a byte (00_scope.md R9). -/
def popcount (b : Byte) : Nat :=
  b[0].toNat + b[1].toNat + b[2].toNat + b[3].toNat + b[4].toNat + b[5].toNat + b[6].toNat + b[7].toNat

/-- `even(n)` (R9). -/
def even (n : Nat) : Bool := n % 2 == 0

/-- Step 2 of ENCODE: bit 7 is set when it makes the total odd (R100, 30_encoding.md R75). -/
def withParity (key raw : Byte) : Byte :=
  if even (popcount key + popcount raw) then raw ||| 0x80#8 else raw

/-- The checksum of a raw action byte that has its parity bit (R100 step 3, 30_encoding.md R76). -/
def checksum (key raw : Byte) : Nat :=
  popcount key + popcount raw

/-- The action byte of ENCODE, its four steps (R100). -/
def encodeActionByte (key : Byte) (action : ActionKind) (led : Bool) : Byte :=
  let raw := withParity key (rawAction action led)
  raw + BitVec.ofNat 8 (checksum key raw % 16)

/-- The checksum VALIDATE expects: key byte plus bits 7:4 of the action byte (R105, 90_conflicts.md C2; log 23). -/
def expectedChecksum (key actionByte : Byte) : Nat :=
  popcount key + popcount (actionByte &&& 0xF0#8)

/-- `err[0]`, ChecksumMismatch (R104). -/
def checksumMismatch (key actionByte confirm : Byte) : Bool :=
  (confirm &&& 0x0F#8).toNat != expectedChecksum key actionByte

/-- `err[1]`, ParityMismatch (R104). -/
def parityMismatch (confirm : Byte) : Bool := even (popcount confirm)

/-- `err[2]`, RemoteErrorFlag (R104). -/
def remoteErrorFlag (confirm : Byte) : Bool := (confirm &&& 0x40#8) != 0#8

/-- The result of VALIDATE (R104): `ok`, `err`, `switchOn`, `ledOn`. -/
structure Verdict where
  ok : Bool
  err : BitVec 3
  switchOn : Bool
  ledOn : Bool
deriving DecidableEq, Repr, Inhabited

/-- The three error bits, bit 0 ChecksumMismatch, bit 1 ParityMismatch, bit 2 RemoteErrorFlag (R104, R106). -/
def validationErr (key actionByte confirm : Byte) : BitVec 3 :=
  bit (remoteErrorFlag confirm) ++ bit (parityMismatch confirm) ++ bit (checksumMismatch key actionByte confirm)

/-- VALIDATE: all three checks, never short-circuited; the two flags are driven in every case (R104, R106, R107). -/
def validateConfirmation (key actionByte confirm : Byte) : Verdict where
  ok := validationErr key actionByte confirm == 0#3
  err := validationErr key actionByte confirm
  switchOn := confirm[5]
  ledOn := confirm[4]

end Sys2Proof.Machine
end

