-- ==== Sys2Proof/Machine/State.lean ====
section
/-! DEFINITION. The state: every element of 10_state.md R20, the ports of the codec blocks (30_encoding.md R85), and the
model's own fields (the environment, the bus transcript, the backoff count, the parameters). Plain data. -/

namespace Sys2Proof.Machine

/-- The eleven sequencer states (10_state.md R34, 41_transport_engine.md R134). -/
inductive Fsm where
  /-- `IDLE` -/
  | idle
  /-- `V_RD` -/
  | vRd
  /-- `V_BK` -/
  | vBk
  /-- `KA_WK` -/
  | kaWk
  /-- `KA_KB` -/
  | kaKb
  /-- `KA_WA` -/
  | kaWa
  /-- `KA_RC` -/
  | kaRc
  /-- `KA_VAL` -/
  | kaVal
  /-- `RT_END` -/
  | rtEnd
  /-- `AT_BK` -/
  | atBk
  /-- `RESP` -/
  | resp
deriving DecidableEq, Repr, Inhabited

/-- The latched command code `op`, 4 bits, of which 0 to 6 occur (R20, R81). -/
inductive Op where
  /-- 0, the reset value: no command was started -/
  | none
  | verify
  | keyaction
  | press
  | release
  | releaseall
  | kbden
deriving DecidableEq, Repr, Inhabited

/-- The outcome of the last round trip: `rt_completed`, `rt_ok`, `rt_err` (R32, R128). -/
structure RoundTrip where
  completed : Bool
  ok : Bool
  err : BitVec 3
deriving DecidableEq, Repr, Inhabited

/-- The response registers `rsp_*` (R35, R84). -/
structure Response where
  valid : Bool
  status : Status
  flag : Bool
  ok : Bool
  err : BitVec 3
  confirm : Byte
deriving DecidableEq, Repr, Inhabited

/-- The ports of `checksum_parity_encoder` (R85). -/
structure EncPorts where
  key : Byte
  action : ActionKind
  led : Bool
  /-- output -/
  keyByte : Byte
  /-- output -/
  actionByte : Byte
deriving DecidableEq, Repr, Inhabited

/-- The ports of `frame_validator` (R85). -/
structure ValPorts where
  key : Byte
  actionByte : Byte
  confirm : Byte
  /-- outputs `val_ok`, `val_err`, `val_switch_on`, `val_led_on` -/
  verdict : Verdict
deriving DecidableEq, Repr, Inhabited

/-- One finished bus operation with the transport's answer (20_memory.md R51, R52). -/
inductive BusEvent where
  /-- a byte write; `err` is true for a transport error -/
  | write (addr : Addr) (data : Byte) (err : Bool)
  /-- a byte read; `none` for a transport error -/
  | read (addr : Addr) (answer : Option Byte)
deriving DecidableEq, Repr

/-- The state of the machine. -/
structure State where
  /-- `address` (R21) -/
  address : Addr
  /-- `verified`: the mode, armed or unarmed (R22, 60_exceptions.md R190) -/
  verified : Bool
  /-- `switch_enabled` (R23) -/
  switchEnabled : Bool
  /-- `led_on` (R24) -/
  ledOn : Bool
  /-- `pressed`, oldest first (R25) -/
  pressed : List Byte
  /-- `op` (R29) -/
  op : Op
  /-- `key` (R29) -/
  key : Byte
  /-- `act` (R29) -/
  act : ActionKind
  /-- `led` (R29) -/
  led : Bool
  /-- `abyte` (R32) -/
  abyte : Byte
  /-- `conf` (R32) -/
  conf : Byte
  /-- `att` (R33) -/
  att : BitVec 4
  /-- `fsm` (R34) -/
  fsm : Fsm
  /-- `rt_*` (R32) -/
  rt : RoundTrip
  /-- `rsp_*` (R35) -/
  rsp : Response
  /-- the encoder's ports -/
  enc : EncPorts
  /-- the validator's ports -/
  val : ValPorts
  /-- MODEL: finished bus operations, oldest first (log 18) -/
  bus : List BusEvent
  /-- MODEL: the input ports in this step (log 1) -/
  port : Input
  /-- MODEL: the inputs of the steps to come, as far as they are fixed (log 1) -/
  script : List Input
  /-- MODEL: how many free inputs have been drawn (log 2) -/
  drawn : Nat
  /-- MODEL: further steps to wait in a backoff state (log 11) -/
  delay : Nat
  /-- MODEL: the parameters of 00_scope.md R7; no step writes them -/
  params : Params
deriving DecidableEq, Repr

/-- Why the machine stops with a fault. The hardware has no hard fault (60_exceptions.md R192). -/
inductive Fault where
  /-- `RT_END` with `op` = 0: raised by the step of `RT_END`, for which 41_transport_engine.md R140 has no row.
  No run from reset reaches it. Safe: the model stops where the spec says nothing (log 19). -/
  | noCommandInProgress
deriving DecidableEq, Repr

/-- Why the model gives a step no meaning. -/
inductive Refusal where
  /-- An instruction without a meaning yet, by its mnemonic: raised by exec only. Safe. -/
  | notModelled (mnemonic : String)
  /-- A Press commit with `pressed` at a finite `PRESSED_CAP`: raised by the step of `KA_VAL`; the spec asks for
  `refuse` (10_state.md R26, 93 U3; log 13). Safe. -/
  | pressedFull
deriving DecidableEq, Repr

/-- No response (R35, R200). -/
def Response.reset : Response := ⟨false, .done, false, false, 0#3, 0#8⟩

/-- The machine right after reset (R20, 70_reset_and_hazards.md R200), nothing presented to it (log 16). -/
def State.reset : State where
  address := Config.params.busAddr
  verified := false
  switchEnabled := false
  ledOn := false
  pressed := []
  op := .none
  key := 0#8
  act := .test
  led := false
  abyte := 0#8
  conf := 0#8
  att := 0#4
  fsm := .idle
  rt := ⟨false, false, 0#3⟩
  rsp := Response.reset
  enc := ⟨0#8, .test, false, 0#8, encodeActionByte 0#8 .test false⟩
  val := ⟨0#8, 0#8, 0#8, validateConfirmation 0#8 0#8 0#8⟩
  bus := []
  port := .quiet
  script := []
  drawn := 0
  delay := 0
  params := Config.params

end Sys2Proof.Machine
end

