-- ==== Sys2Proof/Machine/Ops.lean ====
section
/-! DEFINITION. The shared operations of the engine: the list operations on `pressed`, the response and the return from
it, the start and the abort of a round trip, the bounded attempt, the two bus primitives, the commit, the output ports. -/

namespace Sys2Proof.Machine

/-- The 4-bit value of `op` (30_encoding.md R81; 0 at reset). -/
def Op.code : Op → BitVec 4
  | .none => 0#4
  | .verify => 1#4
  | .keyaction => 2#4
  | .press => 3#4
  | .release => 4#4
  | .releaseall => 5#4
  | .kbden => 6#4

/-- `removeFirst(xs, k)`: the element of lowest index equal to k goes; without one, nothing does (10_state.md R31). -/
def removeFirst (xs : List Byte) (k : Byte) : List Byte :=
  match xs with
  | [] => []
  | x :: rest => if x = k then rest else x :: removeFirst rest k

/-- `respond(status, ...)`: the one way a command ends, this hardware's exception entry. Unnamed fields are 0
(60_exceptions.md R185). -/
def State.respond (s : State) (status : Status) (flag ok : Bool) (err : BitVec 3) (confirm : Byte) : State :=
  { s with rsp := ⟨false, status, flag, ok, err, confirm⟩, fsm := .resp }

/-- `respond(status)` with no field named. -/
def State.respondStatus (s : State) (status : Status) : State :=
  s.respond status false false 0#3 0#8

/-- `respond(Done, rsp_flag, rsp_ok = rt_ok, rsp_err = rt_err, rsp_confirm = conf)` (41_transport_engine.md R140). -/
def State.respondRoundTrip (s : State) (flag : Bool) : State :=
  s.respond .done flag s.rt.ok s.rt.err s.conf

/-- The return: `rsp_valid <- 1 ; fsm <- IDLE` (R141). -/
def State.present (s : State) : State :=
  { s with rsp := { s.rsp with valid := true }, fsm := .idle }

/-- Acceptance of a command clears `rsp_valid` (R124). -/
def State.accept (s : State) : State :=
  { s with rsp := { s.rsp with valid := false } }

/-- The guard: an unarmed engine answers `NotVerified` (R125). -/
def State.guarded (s : State) (run : State → State) : State :=
  if s.verified then run s else s.respondStatus .notVerified

/-- A command word is seen in `IDLE` only (R124, 70_reset_and_hazards.md R214). -/
def State.onIdle (s : State) (run : State → State) : State :=
  if s.fsm = .idle then run s.accept else s

/-- Latch the command and its operands (R29, R135). -/
def State.latch (s : State) (op : Op) (key : Byte) (action : ActionKind) (led : Bool) : State :=
  { s with op := op, key := key, act := action, led := led }

/-- `StartRT`, and to `KA_WK` (R135). -/
def State.startRT (s : State) : State :=
  { s with abyte := encodeActionByte s.key s.act s.led, fsm := .kaWk }

/-- The end of an aborted round trip: `rt_* <- 0`, to `RT_END` (R126 steps 4 and 5, R138). -/
def State.abortRT (s : State) : State :=
  { s with rt := ⟨false, false, 0#3⟩, fsm := .rtEnd }

/-- A failed attempt of a bounded loop: counted, then another one or, at `MAX_ATTEMPTS`, the end (R33, R136, R140). -/
def State.failedAttempt (s : State) (again giveUp : State → State) : State :=
  if s.att.toNat + 1 < Config.maxAttempts then again { s with att := s.att + 1#4 }
  else giveUp { s with att := BitVec.ofNat 4 Config.maxAttempts }

/-- Enter a backoff state for its parameter's number of further steps (R191; log 11). -/
def State.backoff (s : State) (fsm : Fsm) (delay : Nat) : State :=
  { s with fsm := fsm, delay := delay }

/-- The device is not verified: `verified <- 0 ; respond(Done, rsp_flag = 0)` (R131, R136, R140), every other field 0
(60_exceptions.md R185), also after completed probes that were all invalid, for which 30_encoding.md R84 reads otherwise
(DEDUCED, log 31). -/
def State.unverify (s : State) : State :=
  { s with verified := false }.respondStatus .done

/-- A bus operation is finished: it goes to the transcript, after all that went before (20_memory.md R60; log 18). -/
def State.record (s : State) (e : BusEvent) : State :=
  { s with bus := s.bus ++ [e] }

/-- What the engine does with the answer to a write: the rule of the state that issued it (R127, R137, R138). In a
state that issues no write nothing waits for the answer (20_memory.md R51; log 7). -/
def State.afterWrite (s : State) (err : Bool) : State :=
  match s.fsm with
  | .kaWk => if err then s.backoff .kaKb s.params.backoffKeyWrite else { s with fsm := .kaWa }
  | .kaWa => if err then s.abortRT else { s with fsm := .kaRc }
  | _ => s

/-- `BusWrite(addr, b)` (R51, R121): nothing happens until the transport answers. -/
def State.busWrite (s : State) (addr : Addr) (data : Byte) : State :=
  match s.port with
  | .done err _ => (s.record (.write addr data err)).afterWrite err
  | _ => s

/-- The identity candidate is in `conf`: arm and probe, or not verified (R132, R133, R136). -/
def State.judgeIdentity (s : State) : State :=
  if s.conf = Config.identity then
    ({ s with verified := true, att := 0#4 }.latch s.op 0#8 .test false).startRT
  else s.unverify

/-- What the engine does with the answer to a read (R122, R132, R136, R138): a byte goes to `conf`, then the rule of the
state that issued the read. In a state that issues no read nothing more happens (log 7). -/
def State.afterRead (s : State) (answer : Option Byte) : State :=
  match answer with
  | none =>
    match s.fsm with
    | .vRd => s.failedAttempt (fun t => t.backoff .vBk t.params.backoffVerifyRead) State.unverify
    | .kaRc => s.abortRT
    | _ => s
  | some b =>
    match s.fsm with
    | .vRd => { s with conf := b }.judgeIdentity
    | .kaRc => { s with conf := b, fsm := .kaVal }
    | _ => { s with conf := b }

/-- A read that the transport has answered (R52). -/
def State.readAnswered (s : State) (addr : Addr) (answer : Option Byte) : State :=
  (s.record (.read addr answer)).afterRead answer

/-- `BusRead(addr)` (R52, R122): nothing happens until the transport answers. -/
def State.busRead (s : State) (addr : Addr) : State :=
  match s.port with
  | .done true _ => s.readAnswered addr none
  | .done false b => s.readAnswered addr (some b)
  | _ => s

/-- Whether `pressed` holds a finite `PRESSED_CAP` of elements (10_state.md R26). -/
def State.pressedAtCap (s : State) : Bool :=
  match s.params.pressedCap with
  | none => false
  | some cap => cap ≤ s.pressed.length

/-- The change a commit makes to `pressed`; the action decides (R129, 10_state.md R30, R31). -/
def commitPressed (pressed : List Byte) (action : ActionKind) (key : Byte) : List Byte :=
  match action with
  | .test => pressed
  | .press => pressed ++ [key]
  | .release => removeFirst pressed key
  | .releaseAll => []

/-- `Commit(k, a, sw, ld)` (R129); a Press on a full finite store has no meaning (93 U3; log 13). -/
def State.commit (s : State) (switchOn ledOn : Bool) : Host.Outcome State Fault Refusal :=
  if s.act = .press ∧ s.pressedAtCap = true then .refused .pressedFull
  else .next { s with
    pressed := commitPressed s.pressed s.act s.key
    switchEnabled := switchOn
    ledOn := ledOn }

/-! The output ports (30_encoding.md R85; log 10). -/

/-- `cmd_ready`: 1 exactly when `fsm` = `IDLE`. -/
def State.cmdReady (s : State) : Bool := s.fsm == .idle

/-- `t_rw` of the request, if there is one: 0 for a write, 1 for a read (R121, R122, R134). -/
def State.tRw (s : State) : Option Bool :=
  match s.fsm with
  | .kaWk => some false
  | .kaWa => some false
  | .vRd => some true
  | .kaRc => some true
  | _ => none

/-- `t_req`: one bus operation is requested, until `t_done`. -/
def State.tReq (s : State) : Bool := s.tRw.isSome

/-- `t_addr` is `address`. -/
def State.tAddr (s : State) : Addr := s.address

/-- `t_wdata`: the byte to write. In a state that requests no write the spec says nothing of it, and the model shows `key`
(DESIGN CHOICE, log 30). -/
def State.tWdata (s : State) : Byte := if s.fsm = .kaWa then s.abyte else s.key

/-- `trace_valid`, `trace_key`, `trace_action_byte`, `trace_confirm`, `trace_err`: present for the one step of `KA_VAL`
(60_exceptions.md R193). -/
def State.trace (s : State) : Option (Byte × Byte × Byte × BitVec 3) :=
  if s.fsm = .kaVal then some (s.key, s.abyte, s.conf, validationErr s.key s.abyte s.conf) else none

/-- `pk_count`: the length of `pressed` (10_state.md R27). -/
def State.pkCount (s : State) : Nat := s.pressed.length

/-- `pk_data` for the index input `pk_index`; nothing is promised at an index that is not below `pk_count` (R27). -/
def State.pkData (s : State) (index : Nat) : Option Byte := s.pressed[index]?

end Sys2Proof.Machine
end

