-- ==== Sys2Proof/Machine/Bus.lean ====
section
/-! DEFINITION. The bus micro-operations (41_transport_engine.md R121, R122), answered by the transport's input port. -/

namespace Sys2Proof.Machine

/-- BUSWRITE data at the address the request carries (R121). -/
def execBuswrite (addr : Addr) (data : Byte) (s : State) : Host.Outcome State Fault Refusal :=
  .next (s.busWrite addr data)

/-- BUSREAD at the address the request carries (R122). -/
def execBusread (addr : Addr) (s : State) : Host.Outcome State Fault Refusal :=
  .next (s.busRead addr)

end Sys2Proof.Machine
end

