-- ==== Sys2Proof/Machine/Codec.lean ====
section
/-! DEFINITION. The codec functions at their own ports (40_frame_codec.md R100, R104; 30_encoding.md R85). They are not
gated by the mode and touch no state of the engine (60_exceptions.md R190; log 9). -/

namespace Sys2Proof.Machine

/-- ENCODE key, action, led: the encoder's ports (R100). -/
def execEncode (key : Byte) (action : ActionKind) (led : Bool) (s : State) : Host.Outcome State Fault Refusal :=
  .next { s with enc := ⟨key, action, led, key, encodeActionByte key action led⟩ }

/-- VALIDATE key, actionByte, confirm: the validator's ports (R104). -/
def execValidate (key actionByte confirm : Byte) (s : State) : Host.Outcome State Fault Refusal :=
  .next { s with val := ⟨key, actionByte, confirm, validateConfirmation key actionByte confirm⟩ }

end Sys2Proof.Machine
end

