-- ==== Sys2Proof/Machine/Commands.lean ====
section
/-! DEFINITION. The six commands: what the acceptance of each does in `IDLE` (41_transport_engine.md R124, R125, R135). The
steps that follow are the step machine's (log 5). -/

namespace Sys2Proof.Machine

/-- VERIFY: no guard; to the identity read (R131, R135). -/
def execVerify (s : State) : Host.Outcome State Fault Refusal :=
  .next (s.onIdle fun t => { t with op := .verify, att := 0#4, fsm := .vRd })

/-- KEYACTION key, action, led (R130, R135). -/
def execKeyaction (key : Byte) (action : ActionKind) (led : Bool) (s : State) : Host.Outcome State Fault Refusal :=
  .next (s.onIdle fun t => t.guarded fun u => (u.latch .keyaction key action led).startRT)

/-- PRESS key = keyAction(key, Press, LedOn) (42_derived_ops.md R160). -/
def execPress (key : Byte) (s : State) : Host.Outcome State Fault Refusal :=
  .next (s.onIdle fun t => t.guarded fun u => (u.latch .press key .press true).startRT)

/-- RELEASE key = keyAction(key, Release, LedOn) (R161). -/
def execRelease (key : Byte) (s : State) : Host.Outcome State Fault Refusal :=
  .next (s.onIdle fun t => t.guarded fun u => (u.latch .release key .release true).startRT)

/-- RELEASEALL: the bounded loop over keyAction(0, ReleaseAll, LedOn) (R162, R163). -/
def execReleaseall (s : State) : Host.Outcome State Fault Refusal :=
  .next (s.onIdle fun t => t.guarded fun u =>
    ({ u with att := 0#4 }.latch .releaseall 0#8 .releaseAll true).startRT)

/-- KBDEN: the bounded loop over keyAction(0, Test, LedOff) (R164, R163). -/
def execKbden (s : State) : Host.Outcome State Fault Refusal :=
  .next (s.onIdle fun t => t.guarded fun u => ({ u with att := 0#4 }.latch .kbden 0#8 .test false).startRT)

end Sys2Proof.Machine
end

