-- ==== Sys2Proof/Machine/Response.lean ====
section
/-! DEFINITION. RSP: the response a finished command presents (30_encoding.md R84, 41_transport_engine.md R141). -/

namespace Sys2Proof.Machine

/-- RSP: in `RESP` these fields are presented with `rsp_valid` = 1 and the engine returns to `IDLE`; in no other state
does the engine present a response (R141, R134; log 8). -/
def execRsp (status : Status) (flag ok : Bool) (err : BitVec 3) (confirm : Byte) (s : State) :
    Host.Outcome State Fault Refusal :=
  if s.fsm = .resp then .next (s.respond status flag ok err confirm).present else .next s

end Sys2Proof.Machine
end

