-- ==== Sys2Proof/Machine/Wire.lean ====
section
/-! DEFINITION. The wire formats as what the bus carries (30_encoding.md R71 to R78): FRAME and ACTION_BYTE.* are written by
the engine, CONFIRM and IDENTITY are the bytes its reads are answered with (log 6). -/

namespace Sys2Proof.Machine

/-- The byte of a frame whose write is due: the key id byte first, the action byte when the engine is at the second
write (R71, 20_memory.md R54). -/
def State.frameByteDue (s : State) (key actionByte : Byte) : Byte :=
  if s.fsm = .kaWa then actionByte else key

/-- The write of an action byte, the second byte of a frame, to the session's device (R72, R126 step 4). -/
def State.writeActionByte (s : State) (parity led : Bool) (action : ActionKind) (checksum : BitVec 4) : State :=
  s.busWrite s.address (packActionByte parity led action checksum)

/-- FRAME: two single-byte writes, one a step, in the fixed order (R71). -/
def execFrame (key : Byte) (parity led : Bool) (action : ActionKind) (checksum : BitVec 4) (s : State) :
    Host.Outcome State Fault Refusal :=
  .next (s.busWrite s.address (s.frameByteDue key (packActionByte parity led action checksum)))

/-- ACTION_BYTE.Test (R73). -/
def execActionByteTest (parity led : Bool) (checksum : BitVec 4) (s : State) : Host.Outcome State Fault Refusal :=
  .next (s.writeActionByte parity led .test checksum)

/-- ACTION_BYTE.Press (R73). -/
def execActionBytePress (parity led : Bool) (checksum : BitVec 4) (s : State) : Host.Outcome State Fault Refusal :=
  .next (s.writeActionByte parity led .press checksum)

/-- ACTION_BYTE.Release (R73). -/
def execActionByteRelease (parity led : Bool) (checksum : BitVec 4) (s : State) : Host.Outcome State Fault Refusal :=
  .next (s.writeActionByte parity led .release checksum)

/-- ACTION_BYTE.ReleaseAll (R73). -/
def execActionByteReleaseAll (parity led : Bool) (checksum : BitVec 4) (s : State) : Host.Outcome State Fault Refusal :=
  .next (s.writeActionByte parity led .releaseAll checksum)

/-- CONFIRM: a read of the session's device is answered with this byte (R77, R122). -/
def execConfirm (parity error switch led : Bool) (checksum : BitVec 4) (s : State) : Host.Outcome State Fault Refusal :=
  .next (s.readAnswered s.address (some (packConfirm parity error switch led checksum)))

/-- IDENTITY: a read of the session's device is answered with 0x82 (R78, R132). -/
def execIdentity (s : State) : Host.Outcome State Fault Refusal :=
  .next (s.readAnswered s.address (some Config.identity))

end Sys2Proof.Machine
end

