-- ==== Sys2Proof/Machine/Dispatch.lean ====
section
/-! DEFINITION. One arm per operation. -/

namespace Sys2Proof.Machine

/-- The meaning of every operation. -/
def exec (i : Instr) (s : State) : Host.Outcome State Fault Refusal :=
  match i with
  | .verify => Sys2Proof.Machine.execVerify s
  | .keyaction key action led => Sys2Proof.Machine.execKeyaction key action led s
  | .press key => Sys2Proof.Machine.execPress key s
  | .release key => Sys2Proof.Machine.execRelease key s
  | .releaseall => Sys2Proof.Machine.execReleaseall s
  | .kbden => Sys2Proof.Machine.execKbden s
  | .encode key action led => Sys2Proof.Machine.execEncode key action led s
  | .validate key actionByte confirm => Sys2Proof.Machine.execValidate key actionByte confirm s
  | .buswrite addr data => Sys2Proof.Machine.execBuswrite addr data s
  | .busread addr => Sys2Proof.Machine.execBusread addr s
  | .frame key parity led action checksum => Sys2Proof.Machine.execFrame key parity led action checksum s
  | .actionByteTest parity led checksum => Sys2Proof.Machine.execActionByteTest parity led checksum s
  | .actionBytePress parity led checksum => Sys2Proof.Machine.execActionBytePress parity led checksum s
  | .actionByteRelease parity led checksum => Sys2Proof.Machine.execActionByteRelease parity led checksum s
  | .actionByteReleaseAll parity led checksum => Sys2Proof.Machine.execActionByteReleaseAll parity led checksum s
  | .confirm parity error switch led checksum => Sys2Proof.Machine.execConfirm parity error switch led checksum s
  | .identity => Sys2Proof.Machine.execIdentity s
  | .rsp status flag ok err confirm => Sys2Proof.Machine.execRsp status flag ok err confirm s

end Sys2Proof.Machine
end

