-- ==== Sys2Proof/Machine/Engine.lean ====
section
/-! DEFINITION. The engine's actions that no word stands for: reset, backoff, `KA_VAL`, `RT_END`
(41_transport_engine.md R134 to R140, 70_reset_and_hazards.md R200). -/

namespace Sys2Proof.Machine

/-- `rst` = 1: every state element takes its reset value; a command in progress is dropped without a response (R200,
R201). The codec ports, the transcript and the environment are no storage of the block and stay (log 17). -/
def State.hardReset (s : State) : State :=
  { State.reset with
    address := s.params.busAddr
    enc := s.enc
    val := s.val
    bus := s.bus
    port := s.port
    script := s.script
    drawn := s.drawn
    params := s.params }

/-- What follows a backoff: the read, the key byte write, or a new round trip (R136, R137, R140). -/
def State.delayOver (s : State) : State :=
  match s.fsm with
  | .vBk => { s with fsm := .vRd }
  | .kaKb => { s with fsm := .kaWk }
  | .atBk => s.startRT
  | _ => s

/-- One step of a backoff state (R191). -/
def State.delayStep (s : State) : State :=
  if s.delay = 0 then s.delayOver else { s with delay := s.delay - 1 }

/-- `KA_VAL`: VALIDATE, the outcome registers, the commit of a valid round trip (R126 steps 6 and 7, R139). -/
def State.validateStep (s : State) : Host.Outcome State Fault Refusal :=
  let v := validateConfirmation s.key s.abyte s.conf
  let t := { s with rt := ⟨true, v.ok, v.err⟩, fsm := .rtEnd }
  if v.ok then t.commit v.switchOn v.ledOn else .next t

/-- The end of an attempt that failed, in a loop over whole round trips (R140, 42_derived_ops.md R163). -/
def State.retryRoundTrip (s : State) (giveUp : State → State) : State :=
  s.failedAttempt (fun t => t.backoff .atBk t.params.backoffAttempt) giveUp

/-- Whether the probe of VERIFY succeeded (R133). -/
def State.probeSucceeded (s : State) : Bool :=
  s.rt.completed && (s.rt.ok || s.params.probeSuccess == .completed)

/-- `RT_END`, KEYACTION, PRESS, RELEASE (R140, R130 step 8). -/
def State.endSingle (s : State) : State :=
  if s.rt.completed then s.respondRoundTrip false else s.respondStatus .transportAborted

/-- `RT_END`, RELEASEALL and KBDEN: the flag of a completed round trip differs (R140, R162, R164). -/
def State.endLoop (s : State) (flag : Bool) : State :=
  if s.rt.completed then s.respondRoundTrip flag else s.retryRoundTrip fun t => t.respondStatus .done

/-- `RT_END`, VERIFY (R140, R133). -/
def State.endProbe (s : State) : State :=
  if s.probeSucceeded then s.respondRoundTrip true else s.retryRoundTrip State.unverify

/-- `RT_END` (R140). -/
def State.roundTripEnd (s : State) : Host.Outcome State Fault Refusal :=
  match s.op with
  | .none => .fault .noCommandInProgress
  | .verify => .next s.endProbe
  | .keyaction => .next s.endSingle
  | .press => .next s.endSingle
  | .release => .next s.endSingle
  | .releaseall => .next (s.endLoop true)
  | .kbden => .next (s.endLoop s.switchEnabled)

/-- An accepted word that is no command: `IllegalCmd`, decoded before the guard (60_exceptions.md R186). -/
def State.illegalCommand (s : State) : State :=
  s.accept.respondStatus .illegalCmd

end Sys2Proof.Machine
end

