-- ==== Sys2Proof/Machine/Fetch.lean ====
section
/-! DEFINITION. What the machine does next: the action of the sequencer state (41_transport_engine.md R134), the word it
acts on where there is one, and the placing of a word so that the next step acts on it. -/

namespace Sys2Proof.Machine

/-- The one action of a step (R134). -/
inductive Action where
  /-- `rst` = 1 -/
  | reset
  /-- no command is presented in `IDLE` -/
  | idle
  /-- a word on one of the lines: a command, a bus request, a response, a codec vector -/
  | word (w : PortWord)
  /-- `V_BK`, `KA_KB`, `AT_BK` -/
  | delay
  /-- `KA_VAL` -/
  | validate
  /-- `RT_END` -/
  | decide
deriving DecidableEq, Repr

/-- The action of the engine's own state (R134). -/
def State.engineAction (s : State) : Action :=
  match s.fsm with
  | .idle =>
    match s.port with
    | .cmd w => .word (.cmd w)
    | _ => .idle
  | .vRd => .word (.tportRead (packTportRead s.address))
  | .vBk => .delay
  | .kaWk => .word (.tportWrite (packTportWrite s.address s.key))
  | .kaKb => .delay
  | .kaWa => .word (.tportWrite (packTportWrite s.address s.abyte))
  | .kaRc => .word (.tportRead (packTportRead s.address))
  | .kaVal => .validate
  | .rtEnd => .decide
  | .atBk => .delay
  | .resp =>
    .word (.rsp (packRsp true s.rsp.status.code s.rsp.flag s.rsp.ok s.rsp.err s.rsp.confirm))

/-- The action of the machine: reset wins, a codec vector is the codec block's, else the engine acts (log 29). -/
def State.action (s : State) : Action :=
  match s.port with
  | .rst => .reset
  | .encIn v => .word (.encIn v)
  | .valIn v => .word (.valIn v)
  | _ => s.engineAction

/-- The input ports of the next step: the next fixed input, or a free one (R123; logs 1, 2). -/
def State.advance (s : State) : State :=
  match s.script with
  | i :: rest => { s with port := i, script := rest }
  | [] => { s with port := Config.freeInput s.drawn, drawn := s.drawn + 1 }

/-- Put a word where the next step acts on it: a command or a codec vector on its input port; a write in the state that
issues it, a read byte as the answer of the state that waits for it, each answered `ok` (log 4). -/
def State.place (s : State) (p : PortWord) : State :=
  match p with
  | .cmd w => { s with fsm := .idle, port := .cmd w }
  | .encIn w => { s with port := .encIn w }
  | .valIn w => { s with port := .valIn w }
  | .tportWrite w =>
    { s with fsm := .kaWk, address := w.extractLsb' 8 7, key := w.extractLsb' 0 8, port := .done false 0#8 }
  | .tportRead w => { s with fsm := .kaRc, address := w.extractLsb' 0 7, port := .done false 0#8 }
  | .frame w =>
    { s with fsm := .kaWk, key := w.extractLsb' 8 8, abyte := w.extractLsb' 0 8, port := .done false 0#8 }
  | .actionByte w => { s with fsm := .kaWa, abyte := w, port := .done false 0#8 }
  | .confirm w => { s with fsm := .kaRc, port := .done false w }
  | .identity w => { s with fsm := .vRd, op := .verify, port := .done false w }
  | .rsp w =>
    { s with
      fsm := .resp
      rsp := ⟨false, (statusOfCode (w.extractLsb' 13 3)).getD .done, w[12], w[11],
        w.extractLsb' 8 3, w.extractLsb' 0 8⟩
      port := .quiet }

end Sys2Proof.Machine
end

