-- ==== Sys2Proof/Machine/Run.lean ====
section
/-! DEFINITION. One action run: a word is decoded and executed, the actions without a word act (41_transport_engine.md
R134). -/

namespace Sys2Proof.Machine

/-- A word is decoded and run; a word that is no operation is an illegal command (60_exceptions.md R186): the other
words an action can name always decode. -/
def State.runWord (s : State) (w : PortWord) : Host.Outcome State Fault Refusal :=
  match decode w with
  | .ok i => exec i s
  | .error _ => .next s.illegalCommand

/-- One action (R134). -/
def State.runAction (s : State) (a : Action) : Host.Outcome State Fault Refusal :=
  match a with
  | .reset => .next s.hardReset
  | .idle => .next s
  | .word w => s.runWord w
  | .delay => .next s.delayStep
  | .validate => s.validateStep
  | .decide => s.roundTripEnd

/-- The ports move on after an action that has a next state. -/
def advanceOutcome (o : Host.Outcome State Fault Refusal) : Host.Outcome State Fault Refusal :=
  match o with
  | .next t => .next t.advance
  | .fault f => .fault f
  | .refused r => .refused r

end Sys2Proof.Machine
end

