-- ==== Sys2Proof/Machine/Step.lean ====
section
/-! DEFINITION. One step of the machine: the action of the present state, then the input ports of the next step. -/

namespace Sys2Proof.Machine

/-- One step. -/
def step (s : State) : Host.Outcome State Fault Refusal :=
  advanceOutcome (s.runAction s.action)

/-- `s` with a table row's word placed where the next step acts on it (logs 3, 4). -/
def State.withFetchWord (s : State) (nbits w : Nat) : State :=
  match tableWord nbits w with
  | some p => s.place p
  | none => s

end Sys2Proof.Machine
end

