-- ==== Sys2Proof/WellFormed.lean ====
section
/-! DEFINITION. Which operations can occur: an action byte is one the encoder produces (30_encoding.md R75, R76, R83),
a response is one the engine presents (R84). Every other operand value is legal (R82). -/

namespace Sys2Proof

/-- The parity bit and the checksum are those ENCODE gives for this key (R75, R76). -/
def WellFormed.frame (key : Byte) (parity led : Bool) (action : ActionKind) (checksum : BitVec 4) : Bool :=
  Machine.packActionByte parity led action checksum == Machine.encodeActionByte key action led

/-- Some key gives this action byte: the checksum is odd and counts P, L, A plus a popcount of at most 8 (R76, R83). -/
def WellFormed.actionByte (parity led : Bool) (action : ActionKind) (checksum : BitVec 4) : Bool :=
  let upper := Machine.popcount (Machine.packActionByte parity led action 0#4)
  checksum.toNat % 2 == 1 && upper ≤ checksum.toNat && checksum.toNat ≤ upper + 8

/-- The field rules of R84: nothing but the status unless `Done`; `ok` means no error bit; no round trip, no byte. -/
def WellFormed.response (status : Status) (flag ok : Bool) (err : BitVec 3) (confirm : Byte) : Bool :=
  (status == .done || (!flag && !ok && err == 0#3 && confirm == 0#8)) &&
  (!ok || err == 0#3) &&
  (ok || err != 0#3 || confirm == 0#8)

/-- An operation whose operands can occur on this hardware. -/
def WellFormed (i : Instr) : Bool :=
  match i with
  | .verify => true
  | .keyaction _ _ _ => true
  | .press _ => true
  | .release _ => true
  | .releaseall => true
  | .kbden => true
  | .encode _ _ _ => true
  | .validate _ _ _ => true
  | .buswrite _ _ => true
  | .busread _ => true
  | .frame key parity led action checksum => WellFormed.frame key parity led action checksum
  | .actionByteTest parity led checksum => WellFormed.actionByte parity led .test checksum
  | .actionBytePress parity led checksum => WellFormed.actionByte parity led .press checksum
  | .actionByteRelease parity led checksum => WellFormed.actionByte parity led .release checksum
  | .actionByteReleaseAll parity led checksum => WellFormed.actionByte parity led .releaseAll checksum
  | .confirm _ _ _ _ _ => true
  | .identity => true
  | .rsp status flag ok err confirm => WellFormed.response status flag ok err confirm

end Sys2Proof
end

