-- ==== Sys2Proof/Safety.lean ====
section
/-! DEFINITION. What claims are stated in: the invariant of the machine, runs over given inputs, the parts of the state
that rules speak of together. -/

namespace Sys2Proof

/-- The inputs under which the engine itself acts: no reset, and no codec vector (log 29). -/
def Input.engineActs : Input → Bool
  | .rst => false
  | .encIn _ => false
  | .valIn _ => false
  | _ => true

end Sys2Proof

namespace Sys2Proof.Machine

/-- The sequencer states of a round trip, its end and the wait before another attempt. -/
def Fsm.inRoundTrip : Fsm → Bool
  | .kaWk => true
  | .kaKb => true
  | .kaWa => true
  | .kaRc => true
  | .kaVal => true
  | .rtEnd => true
  | .atBk => true
  | _ => false

/-- The backoff states (60_exceptions.md R191). -/
def Fsm.isBackoff : Fsm → Bool
  | .vBk => true
  | .kaKb => true
  | .atBk => true
  | _ => false

/-- The commands that run a bounded loop of round trips (42_derived_ops.md R163, 41_transport_engine.md R133). -/
def Op.hasLoop : Op → Bool
  | .verify => true
  | .releaseall => true
  | .kbden => true
  | _ => false

/-- The operands a command fixes (41_transport_engine.md R135, R136); KEYACTION fixes none. -/
def Op.operandsFixed (op : Op) (key : Byte) (action : ActionKind) (led : Bool) : Bool :=
  match op with
  | .none => false
  | .verify => key == 0#8 && action == .test && !led
  | .keyaction => true
  | .press => action == .press && led
  | .release => action == .release && led
  | .releaseall => key == 0#8 && action == .releaseAll && led
  | .kbden => key == 0#8 && action == .test && !led

/-- `address` holds `BUS_ADDR` (10_state.md R21). -/
abbrev State.AddressHeld (s : State) : Prop := s.address = s.params.busAddr

/-- `att` never exceeds 10, and is below 10 while a bounded loop runs (10_state.md R33). -/
abbrev State.AttemptsBounded (s : State) : Prop :=
  s.att.toNat ≤ 10 ∧
  (s.fsm = .vRd ∨ s.fsm = .vBk ∨ (s.fsm.inRoundTrip = true ∧ s.op.hasLoop = true) → s.att.toNat < 10)

/-- The identity read belongs to VERIFY, and only a looping command waits between attempts. -/
abbrev State.OpMatchesFsm (s : State) : Prop :=
  (s.fsm = .vRd ∨ s.fsm = .vBk → s.op = .verify) ∧ (s.fsm = .atBk → s.op.hasLoop = true)

/-- A round trip runs only armed (tentatively so in VERIFY, R133), for a command, with the operands of that command. -/
abbrev State.RoundTripArmed (s : State) : Prop :=
  s.fsm.inRoundTrip = true → s.verified = true ∧ s.op.operandsFixed s.key s.act s.led = true

/-- In a round trip `abyte` is the encoder's output for the operands (10_state.md R32, 30_encoding.md R83). -/
abbrev State.ActionByteEncoded (s : State) : Prop :=
  s.fsm.inRoundTrip = true → s.abyte = encodeActionByte s.key s.act s.led

/-- `rt_ok` and `rt_err` are 0 for an aborted round trip, and `rt_ok` = 1 exactly when `rt_err` = 0 for a completed one
(R128). -/
abbrev State.OutcomeConsistent (s : State) : Prop :=
  if s.rt.completed = true then (s.rt.ok = true ↔ s.rt.err = 0#3) else s.rt.ok = false ∧ s.rt.err = 0#3

/-- The response fields keep the rules of 30_encoding.md R84, and a valid response is shown in `IDLE` only
(70_reset_and_hazards.md R216). -/
abbrev State.ResponseConsistent (s : State) : Prop :=
  WellFormed.response s.rsp.status s.rsp.flag s.rsp.ok s.rsp.err s.rsp.confirm = true ∧
  (s.rsp.valid = true → s.fsm = .idle)

/-- MODEL: nothing is left to wait outside a backoff state (log 11). -/
abbrev State.DelayIdle (s : State) : Prop := s.fsm.isBackoff = false → s.delay = 0

/-- The codec blocks are combinational: their outputs are those of their inputs (30_encoding.md R85). -/
abbrev State.CodecCombinational (s : State) : Prop :=
  (s.enc.keyByte = s.enc.key ∧ s.enc.actionByte = encodeActionByte s.enc.key s.enc.action s.enc.led) ∧
  s.val.verdict = validateConfirmation s.val.key s.val.actionByte s.val.confirm

/-- `pressed` holds at most `PRESSED_CAP` elements (10_state.md R26). -/
abbrev State.PressedWithinCap (s : State) : Prop := ∀ cap ∈ s.params.pressedCap, s.pressed.length ≤ cap

/-- The invariant of the machine. -/
structure State.Inv (s : State) : Prop where
  addressHeld : s.AddressHeld
  attemptsBounded : s.AttemptsBounded
  opMatchesFsm : s.OpMatchesFsm
  roundTripArmed : s.RoundTripArmed
  actionByteEncoded : s.ActionByteEncoded
  outcomeConsistent : s.OutcomeConsistent
  responseConsistent : s.ResponseConsistent
  delayIdle : s.DelayIdle
  codecCombinational : s.CodecCombinational
  pressedWithinCap : s.PressedWithinCap

/-- `GoodConfirm(chk, sw, ld)`, the confirmation byte with this checksum and these flags that is valid
(40_frame_codec.md R108). -/
def goodConfirm (chk : BitVec 4) (switchOn ledOn : Bool) : Byte :=
  let low := chk.setWidth 8 ||| (bit ledOn).setWidth 8 * 16#8 ||| (bit switchOn).setWidth 8 * 32#8
  if even (popcount low) then low ||| 128#8 else low

/-- The session state of 10_state.md R28. -/
structure Session where
  address : Addr
  verified : Bool
  switchEnabled : Bool
  ledOn : Bool
  pressed : List Byte
deriving DecidableEq, Repr

/-- The session state of a machine state. -/
def State.session (s : State) : Session := ⟨s.address, s.verified, s.switchEnabled, s.ledOn, s.pressed⟩

/-- `s` with these inputs in the coming steps: the first stands on the ports now. -/
def State.withInputs (s : State) (inputs : List Input) : State :=
  match inputs with
  | [] => s
  | i :: rest => { s with port := i, script := rest }

/-- `k` steps of the machine. -/
def run (k : Nat) (s : State) : Host.Outcome State Fault Refusal := Host.Core.run Sys2Proof.core k s

/-- The inputs of `n` attempts, each with these inputs. -/
def repeated (n : Nat) (inputs : List Input) : List Input := (List.replicate n inputs).flatten

/-- The inputs of one failed key id byte write: the transport error, and nothing while the backoff lasts (R137). -/
def failedKeyWrite (s : State) : List Input :=
  .done true 0#8 :: List.replicate (s.params.backoffKeyWrite + 1) .quiet

/-- The steps one failed key id byte write takes. -/
def failedKeyWriteSteps (s : State) : Nat := s.params.backoffKeyWrite + 2

/-- The answers `ok` to the writes of a frame and this byte to the read, then nothing in `KA_VAL` (R126). -/
def answeredFrame (confirm : Byte) : List Input :=
  [.done false 0#8, .done false 0#8, .done false confirm, .quiet]

/-- The bus operations of one completed frame (R54, R126). -/
def frameTraffic (addr : Addr) (key actionByte confirm : Byte) : List BusEvent :=
  [.write addr key false, .write addr actionByte false, .read addr (some confirm)]

/-- How the bus operations of a round trip end, once its key id byte is delivered (41_transport_engine.md R126, R127). -/
inductive RoundTripEnd where
  /-- the action byte write is answered `err` -/
  | writeError
  /-- the confirmation read is answered `err` -/
  | readError
  /-- the confirmation read returns this byte -/
  | confirmed (confirm : Byte)
deriving DecidableEq, Repr

/-- One round trip as the transport answers it: first this many failed key id byte writes, which no loop counts
(42_derived_ops.md R163), then an end. -/
structure Attempt where
  keyErrors : Nat
  ending : RoundTripEnd
deriving DecidableEq, Repr

/-- The action byte write or the confirmation read returned `err` (R163). -/
def Attempt.aborts (a : Attempt) : Bool :=
  match a.ending with
  | .confirmed _ => false
  | _ => true

/-- The inputs of the round trip, from the first key id byte write up to `RT_END`. -/
def Attempt.inputs (a : Attempt) (s : State) : List Input :=
  repeated a.keyErrors (failedKeyWrite s) ++
    match a.ending with
    | .writeError => [.done false 0#8, .done true 0#8]
    | .readError => [.done false 0#8, .done false 0#8, .done true 0#8]
    | .confirmed c => answeredFrame c

/-- The inputs of the round trip, of `RT_END` and of the backoff before another attempt (R163). -/
def Attempt.retried (a : Attempt) (s : State) : List Input :=
  a.inputs s ++ List.replicate (s.params.backoffAttempt + 2) .quiet

/-- The bus operations of the round trip (R126). -/
def Attempt.traffic (addr : Addr) (key actionByte : Byte) (a : Attempt) : List BusEvent :=
  List.replicate a.keyErrors (BusEvent.write addr key true) ++
    match a.ending with
    | .writeError => [.write addr key false, .write addr actionByte true]
    | .readError => [.write addr key false, .write addr actionByte false, .read addr none]
    | .confirmed c => frameTraffic addr key actionByte c

/-- `rt_*` after the round trip (R128). -/
def Attempt.outcome (key actionByte : Byte) (a : Attempt) : RoundTrip :=
  match a.ending with
  | .confirmed c => ⟨true, (validateConfirmation key actionByte c).ok, (validateConfirmation key actionByte c).err⟩
  | _ => ⟨false, false, 0#3⟩

/-- `conf` after the round trip, from `conf` before it: an aborted one keeps it (R126 steps 4 and 5). -/
def Attempt.confAfter (conf : Byte) (a : Attempt) : Byte :=
  match a.ending with
  | .confirmed c => c
  | _ => conf

/-- Whether a probe of VERIFY, the frame 0x00, 0x81, with this confirmation succeeds (R133). -/
def probeAccepts (success : ProbeSuccess) (confirm : Byte) : Bool :=
  (validateConfirmation 0#8 0x81#8 confirm).ok || success == .completed

/-- The round trip fails as a probe of VERIFY: it aborts, or its confirmation is not accepted (R133). -/
def Attempt.failsProbe (success : ProbeSuccess) (a : Attempt) : Bool :=
  match a.ending with
  | .confirmed c => !probeAccepts success c
  | _ => true

/-- The inputs of one identity read that fails, and of its backoff (R132). -/
def failedIdentityRead (s : State) : List Input :=
  .done true 0#8 :: List.replicate (s.params.backoffVerifyRead + 1) .quiet

end Sys2Proof.Machine
end

