-- ==== Sys2Proof/Certificates/Slice0/Obligations.lean ====
section
/-! DEFINITION. The statements for the provers, in the order codec, encoding, commands, bus, step machine, whole machine,
runs. "The spec marks it derived" in a docstring means that the rule behind the statement is an inference of the spec's
own; a clause about the transcript, the delay or the next inputs speaks of the model's own fields (logs 1, 11, 18). -/

open Sys2Proof Sys2Proof.Machine

namespace Sys2Proof.Machine

/-- What 41_transport_engine.md R121, R137 and R138 give for a write of `data` to `addr`, in every state: nothing until the
transport answers; then the answer goes to the transcript and the issuing state follows its policy. In a state that
issues no write the engine keeps its state (20_memory.md R51; the model's choice, log 7). -/
def State.writeResult (s : State) (addr : Addr) (data : Byte) : State :=
  match s.port with
  | .done err _ =>
    let bus := s.bus ++ [BusEvent.write addr data err]
    match s.fsm, err with
    | .kaWk, false => { s with bus := bus, fsm := .kaWa }
    | .kaWk, true => { s with bus := bus, fsm := .kaKb, delay := s.params.backoffKeyWrite }
    | .kaWa, false => { s with bus := bus, fsm := .kaRc }
    | .kaWa, true => { s with bus := bus, rt := ⟨false, false, 0#3⟩, fsm := .rtEnd }
    | _, _ => { s with bus := bus }
  | _ => s

/-- What R122, R132, R136 and R138 give for a read at `addr` that is answered: a byte goes to `conf`; the identity read
arms, fails or counts an attempt; the confirmation read goes on to `KA_VAL` or aborts. In a state that issues no read
only `conf` is written (R122; the model's choice, log 7). With `att` above 9, for which R136 has no row, the identity read
gives up like with 9 (DEDUCED, log 20). -/
def State.readResult (s : State) (addr : Addr) (answer : Option Byte) : State :=
  let bus := s.bus ++ [BusEvent.read addr answer]
  match s.fsm, answer with
  | .vRd, some b =>
    if b = 0x82#8 then
      { s with
        bus := bus, conf := b, verified := true, att := 0#4, key := 0#8, act := .test, led := false
        abyte := encodeActionByte 0#8 .test false, fsm := .kaWk }
    else
      { s with bus := bus, conf := b, verified := false, rsp := ⟨false, .done, false, false, 0#3, 0#8⟩, fsm := .resp }
  | .vRd, none =>
    if s.att.toNat + 1 < 10 then
      { s with bus := bus, att := s.att + 1#4, fsm := .vBk, delay := s.params.backoffVerifyRead }
    else
      { s with
        bus := bus, att := 10#4, verified := false, rsp := ⟨false, .done, false, false, 0#3, 0#8⟩, fsm := .resp }
  | .kaRc, some b => { s with bus := bus, conf := b, fsm := .kaVal }
  | .kaRc, none => { s with bus := bus, rt := ⟨false, false, 0#3⟩, fsm := .rtEnd }
  | _, some b => { s with bus := bus, conf := b }
  | _, none => { s with bus := bus }

/-- The frame of `key`, Press or whatever action, is on its way: the state right after a command has started its round
trip (41_transport_engine.md R135). -/
def State.started (s : State) (op : Op) (key : Byte) (action : ActionKind) (led : Bool) : State :=
  { s with
    rsp := { s.rsp with valid := false }
    op := op, key := key, act := action, led := led
    abyte := encodeActionByte key action led
    fsm := .kaWk }

/-- The response fields after `respond` (60_exceptions.md R185), not yet valid. -/
def State.answered (s : State) (rsp : Response) : State := { s with rsp := rsp, fsm := .resp }

/-- The parts of two states that agree but for the command code, which only distinguishes single round trips. -/
def SameButOp (s t : State) : Prop :=
  s = { t with op := s.op } ∧
  (s.op = t.op ∨ (s.op ∈ [Op.keyaction, .press, .release] ∧ t.op ∈ [Op.keyaction, .press, .release]))

/-- Two outcomes that agree in the same sense. -/
def SameOutcomeButOp (o p : Host.Outcome State Fault Refusal) : Prop :=
  match o, p with
  | .next s, .next t => SameButOp s t
  | .fault f, .fault g => f = g
  | .refused r, .refused q => r = q
  | _, _ => False

end Sys2Proof.Machine

/-! ## The codec -/

/-- 00_scope.md R9: popcount is the number of the eight bits that are 1. -/
def Obligations.PopcountCountsOneBits : Prop :=
  ∀ b : Byte, popcount b = ((List.range 8).filter fun i => b.getLsbD i).length

/-- 40_frame_codec.md R100: ENCODE runs on every input, its result is that of the four steps, and nothing but the
encoder's ports changes. -/
def Obligations.EncodeFollowsItsFourSteps : Prop :=
  ∀ (s : State) (k : Byte) (a : ActionKind) (l : Bool),
    let raw1 : Byte := a.code.setWidth 8 * 16#8 ||| (bit l).setWidth 8 * 64#8
    let raw2 : Byte := if (popcount k + popcount raw1) % 2 = 0 then raw1 ||| 0x80#8 else raw1
    let chk : Nat := popcount k + popcount raw2
    exec (.encode k a l) s =
      .next { s with enc := ⟨k, a, l, k, BitVec.ofNat 8 ((raw2.toNat + chk % 16) % 256)⟩ }

/-- 40_frame_codec.md section 1 (its rule on overflow, which the spec marks derived): the checksum is odd and at most 11, and
adding, or-ing and truncating are the same. -/
def Obligations.ChecksumAdditionNeverCarries : Prop :=
  ∀ (k : Byte) (a : ActionKind) (l : Bool),
    let raw := withParity k (rawAction a l)
    let total := popcount k + popcount raw
    total ∈ [1, 3, 5, 7, 9, 11] ∧ total % 16 = total ∧ raw &&& 0x0F#8 = 0#8 ∧
    raw + BitVec.ofNat 8 total = raw ||| BitVec.ofNat 8 total ∧ raw.toNat + total < 256 ∧
    encodeActionByte k a l = raw + BitVec.ofNat 8 total

/-- 40_frame_codec.md section 1 (the parity invariant and the count of inputs on which its literal reading fails; the spec
marks it derived). -/
def Obligations.FrameParityIsOdd : Prop :=
  (∀ (k : Byte) (a : ActionKind) (l : Bool),
    (popcount k + popcount (encodeActionByte k a l &&& 0xF0#8)) % 2 = 1) ∧
  ((List.range 256).map fun k => ([ActionKind.test, .press, .release, .releaseAll].map fun a =>
    [false, true].countP fun l =>
      (popcount (BitVec.ofNat 8 k) + popcount (encodeActionByte (BitVec.ofNat 8 k) a l)) % 2 == 0).sum).sum = 816

/-- 40_frame_codec.md section 1 (the checksum invariant and the 72 distinct action bytes; the spec marks it derived): the low
nibble is the checksum, and the byte determines, and is determined by, the key's popcount, the action and the LED. -/
def Obligations.ActionByteDeterminesItsInputs : Prop :=
  (∀ (k : Byte) (a : ActionKind) (l : Bool),
    (encodeActionByte k a l &&& 0x0F#8).toNat = popcount k + popcount (encodeActionByte k a l &&& 0xF0#8)) ∧
  ∀ (k k' : Byte) (a a' : ActionKind) (l l' : Bool),
    encodeActionByte k a l = encodeActionByte k' a' l' ↔ popcount k = popcount k' ∧ a = a' ∧ l = l'

/-- 30_encoding.md section 2 (which action bytes occur; the spec marks it derived): a well-formed ACTION_BYTE is one the encoder
gives for some key, and there are 72. -/
def Obligations.WellFormedActionBytesAreEncoded : Prop :=
  (∀ (p l : Bool) (a : ActionKind) (c : BitVec 4),
    WellFormed.actionByte p l a c = true ↔ ∃ k : Byte, packActionByte p l a c = encodeActionByte k a l) ∧
  ((List.range 256).filter fun b => WellFormed (decodeActionByte (BitVec.ofNat 8 b))).length = 72

/-- 40_frame_codec.md R104: VALIDATE runs on every input, all three checks are made, and nothing but the validator's ports
changes. -/
def Obligations.ValidateReportsAllThreeChecks : Prop :=
  ∀ (s : State) (k ab c : Byte),
    ∃ v : Verdict, exec (.validate k ab c) s = .next { s with val := ⟨k, ab, c, v⟩ } ∧
      v.err.getLsbD 0 = decide ((c &&& 0x0F#8).toNat ≠ popcount k + popcount (ab &&& 0xF0#8)) ∧
      v.err.getLsbD 1 = decide (popcount c % 2 = 0) ∧
      v.err.getLsbD 2 = decide (c &&& 0x40#8 ≠ 0#8) ∧
      v.ok = decide (v.err = 0#3) ∧
      v.switchOn = c.getLsbD 5 ∧ v.ledOn = c.getLsbD 4

/-- 40_frame_codec.md section 2 (the expected checksum, decision D9, log 23): for an encoder-made frame it is the low nibble
sent, it ignores the low nibble of the action byte, and it is at most 12. -/
def Obligations.ExpectedChecksumIsTheNibbleSent : Prop :=
  (∀ (k : Byte) (a : ActionKind) (l : Bool),
    expectedChecksum k (encodeActionByte k a l) = (encodeActionByte k a l &&& 0x0F#8).toNat) ∧
  ∀ k ab : Byte, expectedChecksum k ab = expectedChecksum k (ab &&& 0xF0#8) ∧ expectedChecksum k ab ≤ 12

/-- 40_frame_codec.md section 2 (the valid confirmation bytes; the spec marks it derived): the three conditions on the byte,
and exactly four values, one per pair of flags. -/
def Obligations.ValidConfirmationsAreExactlyFour : Prop :=
  ∀ (k : Byte) (a : ActionKind) (l : Bool) (c : Byte),
    let chk : BitVec 4 := (encodeActionByte k a l).extractLsb' 0 4
    let ok := (validateConfirmation k (encodeActionByte k a l) c).ok
    (ok = true ↔ c.extractLsb' 0 4 = chk ∧ c.getLsbD 6 = false ∧
      (c.getLsbD 7).toNat = 1 - (popcount (chk.setWidth 8) + (c.getLsbD 5).toNat + (c.getLsbD 4).toNat) % 2) ∧
    (ok = true ↔ ∃ sw ld : Bool, c = goodConfirm chk sw ld) ∧
    ∀ sw ld sw' ld' : Bool, goodConfirm chk sw ld = goodConfirm chk sw' ld' → sw = sw' ∧ ld = ld'

/-- 40_frame_codec.md section 2 (single-bit error detection and its limit; the spec marks it derived). -/
def Obligations.SingleBitErrorsAreDetected : Prop :=
  ∀ (k : Byte) (a : ActionKind) (l : Bool) (c : Byte),
    let ab := encodeActionByte k a l
    (validateConfirmation k ab c).ok = true →
      (∀ i : Fin 8,
        let v := validateConfirmation k ab (c ^^^ BitVec.twoPow 8 i)
        v.ok = false ∧ v.err.getLsbD 1 = true ∧ (i.val < 4 → v.err.getLsbD 0 = true) ∧
          (i.val = 6 → v.err.getLsbD 2 = true)) ∧
      ∀ i ∈ [4, 5, 7], ∀ j ∈ [4, 5, 7], i ≠ j →
        (validateConfirmation k ab (c ^^^ BitVec.twoPow 8 i ^^^ BitVec.twoPow 8 j)).ok = true

/-- 30_encoding.md section 2 (an inference the spec marks derived): the identity byte is no valid confirmation of any frame. -/
def Obligations.IdentityByteIsNoConfirmation : Prop :=
  ∀ k ab : Byte, (validateConfirmation k ab Config.identity).ok = false

/-! ## Encodings -/

/-- 30_encoding.md R81: the six rows, each by its match and mask. -/
def Obligations.CommandRowsDecodeByMatchAndMask : Prop :=
  ∀ w : BitVec 16,
    (w &&& 0xFFFF#16 = 0x1000#16 ↔ decode (.cmd w) = .ok .verify) ∧
    (w &&& 0xF800#16 = 0x2000#16 ↔ ∃ k a l, decode (.cmd w) = .ok (.keyaction k a l) ∧
      k = w.extractLsb' 0 8 ∧ a.code = w.extractLsb' 8 2 ∧ l = w.getLsbD 10) ∧
    (w &&& 0xFF00#16 = 0x3000#16 ↔ ∃ k, decode (.cmd w) = .ok (.press k) ∧ k = w.extractLsb' 0 8) ∧
    (w &&& 0xFF00#16 = 0x4000#16 ↔ ∃ k, decode (.cmd w) = .ok (.release k) ∧ k = w.extractLsb' 0 8) ∧
    (w &&& 0xFFFF#16 = 0x5000#16 ↔ decode (.cmd w) = .ok .releaseall) ∧
    (w &&& 0xFFFF#16 = 0x6000#16 ↔ decode (.cmd w) = .ok .kbden)

/-- 30_encoding.md R82 (which words are illegal, decision D8) and 60_exceptions.md R186 (their answer): exactly the words
listed are illegal, and one presented in `IDLE` is answered at once with `IllegalCmd`, in either mode, with no bus
operation and no other change. That `op`, `key`, `act` and `led` stay is the model's reading of R124 beside R135 and R186
(DEDUCED, log 15). -/
def Obligations.IllegalWordsAreAnsweredIllegalCmd : Prop :=
  ∀ w : BitVec 16,
    (decode (.cmd w) = .error (.illegalCmd w) ↔
      let op := (w.extractLsb' 12 4).toNat
      op = 0 ∨ 7 ≤ op ∨ w.getLsbD 11 = true ∨
      ((op = 3 ∨ op = 4) ∧ w.extractLsb' 8 3 ≠ 0#3) ∨
      ((op = 1 ∨ op = 5 ∨ op = 6) ∧ w.extractLsb' 0 11 ≠ 0#11)) ∧
    ∀ s : State, s.fsm = .idle → s.port = .cmd w → decode (.cmd w) = .error (.illegalCmd w) →
      step s = .next (s.answered ⟨false, .illegalCmd, false, false, 0#3, 0#8⟩).advance

/-- Decode and encode agree: every operation, with every operand its type admits (30_encoding.md sections 2 and 4). -/
def Obligations.DecodeOfEncodeIsTheInstruction : Prop :=
  ∀ i : Instr, decode (encode i) = .ok i

/-- The other way: a word that decodes is the encoding of what it decodes to, so no bit of it is ignored. -/
def Obligations.EncodeOfDecodeIsTheWord : Prop :=
  ∀ (p : PortWord) (i : Instr), decode p = .ok i → encode i = p

/-- A few words of 95_test_vectors.md sections 2.1, 2.2, 2.4 decode to what they stand for. -/
def Obligations.SampleWordsDecode : Prop :=
  decode (.cmd 0x1000#16) = .ok .verify ∧
  decode (.cmd 0x2504#16) = .ok (.keyaction 4#8 .press true) ∧
  decode (.cmd 0x23C8#16) = .ok (.keyaction 200#8 .releaseAll false) ∧
  decode (.cmd 0x4004#16) = .ok (.release 4#8) ∧
  decode (.cmd 0x2C04#16) = .error (.illegalCmd 0x2C04#16) ∧
  decode (.actionByte 0xD3#8) = .ok (.actionBytePress true true 3#4) ∧
  decode (.frame 0x0453#16) = .ok (.frame 4#8 false true .press 3#4) ∧
  decode (.confirm 0xA1#8) = .ok (.confirm true false true false 1#4) ∧
  decode (.identity 0x82#8) = .ok .identity

/-! ## Commands -/

/-- 41_transport_engine.md section 3 and R135's row: VERIFY, in `IDLE` and in either mode, goes to the identity read with
`att` = 0; nothing else changes but `rsp_valid` and `op`. -/
def Obligations.VerifyStartsTheIdentityRead : Prop :=
  ∀ s : State, s.fsm = .idle →
    exec .verify s =
      .next { s with rsp := { s.rsp with valid := false }, op := .verify, att := 0#4, fsm := .vRd }

/-- 41_transport_engine.md section 5, the rows of `IDLE` for an armed engine: each command latches its operands, encodes
its action byte and goes to the key id byte write; the loops start with `att` = 0; nothing else changes. -/
def Obligations.ArmedCommandsStartTheirRoundTrip : Prop :=
  ∀ s : State, s.fsm = .idle → s.verified = true →
    (∀ k a l, exec (.keyaction k a l) s = .next (s.started .keyaction k a l)) ∧
    (∀ k, exec (.press k) s = .next (s.started .press k .press true)) ∧
    (∀ k, exec (.release k) s = .next (s.started .release k .release true)) ∧
    exec .releaseall s = .next { s.started .releaseall 0#8 .releaseAll true with att := 0#4 } ∧
    exec .kbden s = .next { s.started .kbden 0#8 .test false with att := 0#4 }

/-- 41_transport_engine.md R125: the guard answers `NotVerified` for every command but VERIFY, with no bus access and no
other change; VERIFY has no guard. That `op`, `key`, `act` and `led` stay is the model's reading of R124 beside R125 and
R135 (DEDUCED, log 15). -/
def Obligations.GuardAnswersNotVerified : Prop :=
  ∀ s : State, s.fsm = .idle → s.verified = false →
    (∀ i : Instr, (∃ k a l, i = .keyaction k a l) ∨ (∃ k, i = .press k) ∨ (∃ k, i = .release k) ∨
        i = .releaseall ∨ i = .kbden →
      exec i s = .next (s.answered ⟨false, .notVerified, false, false, 0#3, 0#8⟩)) ∧
    ∃ t, exec .verify s = .next t ∧ t.fsm = .vRd

/-- 70_reset_and_hazards.md section 3 (command port discipline) and 41_transport_engine.md section 2: a command outside
`IDLE` is not seen. -/
def Obligations.CommandsAreNotSeenWhileBusy : Prop :=
  ∀ s : State, s.fsm ≠ .idle →
    ∀ i : Instr, i = .verify ∨ (∃ k a l, i = .keyaction k a l) ∨ (∃ k, i = .press k) ∨ (∃ k, i = .release k) ∨
      i = .releaseall ∨ i = .kbden → exec i s = .next s

/-- 41_transport_engine.md R135: every row, as one step of the machine. That the rows of `IllegalCmd` and `NotVerified` leave
`op`, `key`, `act` and `led` as they were is the model's reading of R124 beside R135 (DEDUCED, log 15). -/
def Obligations.IdleTransitions : Prop :=
  ∀ s : State, s.fsm = .idle →
    (s.port = .quiet ∨ (∃ e b, s.port = .done e b) → step s = .next s.advance) ∧
    ∀ w, s.port = .cmd w →
      (∀ e, decode (.cmd w) = .error e →
        step s = .next (s.answered ⟨false, .illegalCmd, false, false, 0#3, 0#8⟩).advance) ∧
      (decode (.cmd w) = .ok .verify →
        step s = .next
          { s with rsp := { s.rsp with valid := false }, op := .verify, att := 0#4, fsm := .vRd }.advance) ∧
      (s.verified = false → ∀ i, decode (.cmd w) = .ok i → i ≠ .verify →
        step s = .next (s.answered ⟨false, .notVerified, false, false, 0#3, 0#8⟩).advance) ∧
      (s.verified = true →
        (∀ k a l, decode (.cmd w) = .ok (.keyaction k a l) →
          step s = .next (s.started .keyaction k a l).advance) ∧
        (∀ k, decode (.cmd w) = .ok (.press k) → step s = .next (s.started .press k .press true).advance) ∧
        (∀ k, decode (.cmd w) = .ok (.release k) → step s = .next (s.started .release k .release true).advance) ∧
        (decode (.cmd w) = .ok .releaseall →
          step s = .next { s.started .releaseall 0#8 .releaseAll true with att := 0#4 }.advance) ∧
        (decode (.cmd w) = .ok .kbden →
          step s = .next { s.started .kbden 0#8 .test false with att := 0#4 }.advance))

/-! ## The bus -/

/-- BUSWRITE, in every state and for every answer (41_transport_engine.md sections 1 and 5). -/
def Obligations.BuswriteFollowsTheIssuingState : Prop :=
  ∀ (s : State) (addr : Addr) (data : Byte), exec (.buswrite addr data) s = .next (s.writeResult addr data)

/-- BUSREAD, in every state and for every answer (41_transport_engine.md sections 1 and 5). A failed identity read with `att`
above 9, for which R136 has no row, gives up like one with 9 (DEDUCED, log 20); a state that issues no read is log 7. -/
def Obligations.BusreadFollowsTheIssuingState : Prop :=
  ∀ (s : State) (addr : Addr),
    (∀ b, s.port = .done false b → exec (.busread addr) s = .next (s.readResult addr (some b))) ∧
    (∀ b, s.port = .done true b → exec (.busread addr) s = .next (s.readResult addr none)) ∧
    ((∀ e b, s.port ≠ .done e b) → exec (.busread addr) s = .next s)

/-- FRAME: two single-byte writes to the session's device in the fixed order, the key id byte and then, once that one is
delivered, the action byte (30_encoding.md section 2; one write a step is the model's, log 6). -/
def Obligations.FrameIsTwoWritesInOrder : Prop :=
  ∀ (s : State) (k : Byte) (p l : Bool) (a : ActionKind) (c : BitVec 4),
    let ab := packActionByte p l a c
    exec (.frame k p l a c) s = .next (s.writeResult s.address (if s.fsm = .kaWa then ab else k)) ∧
    ∀ b b', s.fsm = .kaWk → s.port = .done false b →
      ∃ t, exec (.frame k p l a c) s = .next t ∧ t.fsm = .kaWa ∧
        exec (.frame k p l a c) { t with port := .done false b' } =
          .next { s with
            port := .done false b'
            bus := s.bus ++ [BusEvent.write s.address k false, BusEvent.write s.address ab false]
            fsm := .kaRc }

/-- ACTION_BYTE.*: one write of the byte, with the row's ActionKind in bits 5:4 (30_encoding.md section 2; log 6; in a
state that issues no write, log 7). -/
def Obligations.ActionBytesAreWritten : Prop :=
  ∀ (s : State) (p l : Bool) (c : BitVec 4),
    exec (.actionByteTest p l c) s = .next (s.writeResult s.address (bit p ++ bit l ++ 0#2 ++ c)) ∧
    exec (.actionBytePress p l c) s = .next (s.writeResult s.address (bit p ++ bit l ++ 1#2 ++ c)) ∧
    exec (.actionByteRelease p l c) s = .next (s.writeResult s.address (bit p ++ bit l ++ 2#2 ++ c)) ∧
    exec (.actionByteReleaseAll p l c) s = .next (s.writeResult s.address (bit p ++ bit l ++ 3#2 ++ c))

/-- CONFIRM and IDENTITY: the byte with which the session's device answers a read (30_encoding.md section 2; log 6; in a state
that issues no read, log 7). -/
def Obligations.ConfirmAndIdentityAnswerARead : Prop :=
  ∀ s : State,
    (∀ (p e sw l : Bool) (c : BitVec 4), exec (.confirm p e sw l c) s =
      .next (s.readResult s.address (some (bit p ++ bit e ++ bit sw ++ bit l ++ c)))) ∧
    exec .identity s = .next (s.readResult s.address (some 0x82#8))

/-- RSP: presented in `RESP`, where it ends the command; in no other state (41_transport_engine.md section 5, log 8). -/
def Obligations.ResponseIsPresentedInResp : Prop :=
  ∀ (s : State) (st : Status) (f o : Bool) (e : BitVec 3) (c : Byte),
    (s.fsm = .resp → exec (.rsp st f o e c) s = .next { s with rsp := ⟨true, st, f, o, e, c⟩, fsm := .idle }) ∧
    (s.fsm ≠ .resp → exec (.rsp st f o e c) s = .next s)

/-! ## The step machine -/

/-- A step runs the decoded operation: where the machine's action names a word that decodes, the step is exec of it, and
then the input ports of the next step (log 1). -/
def Obligations.StepRunsTheDecodedWord : Prop :=
  ∀ (s : State) (w : PortWord) (i : Instr), s.action = .word w → decode w = .ok i →
    step s = match exec i s with
      | .next t => .next t.advance
      | .fault f => .fault f
      | .refused r => .refused r

/-- 41_transport_engine.md section 5, the action column of its state table: which operation each state runs, the wire formats
among them (log 6). That a codec vector takes a step of its own, in which the engine does nothing, is the model's choice
(DESIGN CHOICE, log 29). -/
def Obligations.EachStateRunsItsOperation : Prop :=
  ∀ s : State,
    (∀ v, s.port = .encIn v → step s = advanceOutcome (exec (decodeEncIn v) s)) ∧
    (∀ v, s.port = .valIn v → step s = advanceOutcome (exec (decodeValIn v) s)) ∧
    (s.port.engineActs = true →
      (s.fsm = .vRd ∨ s.fsm = .kaRc → step s = advanceOutcome (exec (.busread s.address) s)) ∧
      (s.fsm = .kaWk → step s = advanceOutcome (exec (.buswrite s.address s.key) s)) ∧
      (s.fsm = .kaWa → step s = advanceOutcome (exec (.buswrite s.address s.abyte) s)) ∧
      (s.fsm = .kaWk ∨ s.fsm = .kaWa →
        step s = advanceOutcome (exec (decodeFrame (packFrame s.key s.abyte)) s)) ∧
      (s.fsm = .kaWa → step s = advanceOutcome (exec (decodeActionByte s.abyte) s)) ∧
      (∀ b, s.fsm = .kaRc → s.port = .done false b → step s = advanceOutcome (exec (decodeConfirm b) s)) ∧
      (s.fsm = .vRd → s.port = .done false 0x82#8 → step s = advanceOutcome (exec .identity s)) ∧
      (s.fsm = .resp → step s = advanceOutcome
        (exec (.rsp s.rsp.status s.rsp.flag s.rsp.ok s.rsp.err s.rsp.confirm) s)))

/-- 41_transport_engine.md section 5, the rows of `V_RD` and `V_BK`: the identity read loop. How long the backoff lasts is a
parameter (log 11); an error with `att` above 9, for which R136 has no row, gives up like one with 9 (DEDUCED, log 20). -/
def Obligations.IdentityReadTransitions : Prop :=
  ∀ s : State, s.port.engineActs = true →
    (s.fsm = .vRd →
      (∀ b, s.port = .done false b → step s = .next (s.readResult s.address (some b)).advance) ∧
      (∀ b, s.port = .done true b → step s = .next (s.readResult s.address none).advance) ∧
      ((∀ e b, s.port ≠ .done e b) → step s = .next s.advance)) ∧
    (s.fsm = .vBk → step s = .next
      (if s.delay = 0 then { s with fsm := .vRd } else { s with delay := s.delay - 1 }).advance)

/-- 41_transport_engine.md section 5, the rows of `KA_WK`, `KA_KB`, `KA_WA`, `KA_RC`: the unbounded key id byte write, the
single action byte write, the single confirmation read. -/
def Obligations.RoundTripTransitions : Prop :=
  ∀ s : State, s.port.engineActs = true →
    (s.fsm = .kaWk → step s = .next (s.writeResult s.address s.key).advance) ∧
    (s.fsm = .kaKb → step s = .next
      (if s.delay = 0 then { s with fsm := .kaWk } else { s with delay := s.delay - 1 }).advance) ∧
    (s.fsm = .kaWa → step s = .next (s.writeResult s.address s.abyte).advance) ∧
    (s.fsm = .kaRc →
      (∀ b, s.port = .done false b → step s = .next
        { s with bus := s.bus ++ [BusEvent.read s.address (some b)], conf := b, fsm := .kaVal }.advance) ∧
      (∀ b, s.port = .done true b → step s = .next
        { s with bus := s.bus ++ [BusEvent.read s.address none], rt := ⟨false, false, 0#3⟩, fsm := .rtEnd }.advance) ∧
      ((∀ e b, s.port ≠ .done e b) → step s = .next s.advance))

/-- 41_transport_engine.md R139: `KA_VAL`, with its trace. The Press on a full finite store is the next statement's. -/
def Obligations.ValidationTransition : Prop :=
  ∀ s : State, s.fsm = .kaVal → s.port.engineActs = true →
    let v := validateConfirmation s.key s.abyte s.conf
    let t := { s with rt := ⟨true, v.ok, v.err⟩, fsm := .rtEnd }
    s.trace = some (s.key, s.abyte, s.conf, v.err) ∧
    (v.ok = false → step s = .next t.advance) ∧
    (v.ok = true → ¬ (s.act = .press ∧ s.pressedAtCap = true) →
      step s = .next { t with
        pressed := match s.act with
          | .test => s.pressed
          | .press => s.pressed ++ [s.key]
          | .release => removeFirst s.pressed s.key
          | .releaseAll => []
        switchEnabled := s.conf.getLsbD 5
        ledOn := s.conf.getLsbD 4 }.advance)

/-- The model's choice for 93 U3 (log 13): the commit of a Press on a store that holds a finite `PRESSED_CAP` is refused, and
on a store that holds less, or on an unbounded one, it is not. -/
def Obligations.PressOnAFullStoreIsRefused : Prop :=
  ∀ s : State, s.fsm = .kaVal → s.port.engineActs = true → s.act = .press →
    (validateConfirmation s.key s.abyte s.conf).ok = true →
    ((∃ cap, s.params.pressedCap = some cap ∧ cap ≤ s.pressed.length) → step s = .refused .pressedFull) ∧
    ((∀ cap, s.params.pressedCap = some cap → s.pressed.length < cap) →
      ∃ t, step s = .next t ∧ t.pressed = s.pressed ++ [s.key])

/-- 41_transport_engine.md R140: `RT_END` and `AT_BK`, every command. That VERIFY's giving up answers `rsp_err` and
`rsp_confirm` 0 after a completed, invalid probe is the model's reading of R84 beside R131, R140 and R185 (DEDUCED,
log 31); the countdown of `AT_BK` is the model's (log 11). -/
def Obligations.RoundTripEndTransitions : Prop :=
  ∀ s : State, s.port.engineActs = true →
    let finished (flag : Bool) := s.answered ⟨false, .done, flag, s.rt.ok, s.rt.err, s.conf⟩
    let waiting := { s with att := s.att + 1#4, fsm := .atBk, delay := s.params.backoffAttempt }
    let gaveUp := { s with att := 10#4 }.answered ⟨false, .done, false, false, 0#3, 0#8⟩
    (s.fsm = .rtEnd →
      (s.op = .keyaction ∨ s.op = .press ∨ s.op = .release →
        (s.rt.completed = true → step s = .next (finished false).advance) ∧
        (s.rt.completed = false →
          step s = .next (s.answered ⟨false, .transportAborted, false, false, 0#3, 0#8⟩).advance)) ∧
      (∀ flag, (s.op = .releaseall ∧ flag = true) ∨ (s.op = .kbden ∧ flag = s.switchEnabled) →
        (s.rt.completed = true → step s = .next (finished flag).advance) ∧
        (s.rt.completed = false → s.att.toNat + 1 < 10 → step s = .next waiting.advance) ∧
        (s.rt.completed = false → s.att.toNat + 1 = 10 → step s = .next gaveUp.advance)) ∧
      (s.op = .verify →
        let succeeded := s.rt.completed = true ∧ (s.rt.ok = true ∨ s.params.probeSuccess = .completed)
        (succeeded → step s = .next (finished true).advance) ∧
        (¬ succeeded → s.att.toNat + 1 < 10 → step s = .next waiting.advance) ∧
        (¬ succeeded → s.att.toNat + 1 = 10 → step s = .next { gaveUp with verified := false }.advance))) ∧
    (s.fsm = .atBk → step s = .next
      (if s.delay = 0 then { s with abyte := encodeActionByte s.key s.act s.led, fsm := .kaWk }
       else { s with delay := s.delay - 1 }).advance)

/-- 41_transport_engine.md section 5, `RESP`, and 60_exceptions.md section 2: the response becomes valid as it was written, and
the engine is ready for the next command. -/
def Obligations.ResponseReturnsToIdle : Prop :=
  ∀ s : State, s.fsm = .resp → s.port.engineActs = true →
    step s = .next { s with rsp := { s.rsp with valid := true }, fsm := .idle }.advance ∧
    ∀ t, step s = .next t → t.cmdReady = true ∧ t.tReq = false

/-- 70_reset_and_hazards.md R200: `rst` takes every state element to its reset value, in every state, a command in progress
included. -/
def Obligations.ResetTakesEveryElement : Prop :=
  ∀ s : State, s.port = .rst →
    ∃ t, step s = .next t ∧
      t.verified = false ∧ t.switchEnabled = false ∧ t.ledOn = false ∧ t.pressed = [] ∧
      t.address = s.params.busAddr ∧ t.fsm = .idle ∧ t.att = 0#4 ∧
      t.op.code = 0#4 ∧ t.key = 0#8 ∧ t.act.code = 0#2 ∧ t.led = false ∧ t.abyte = 0#8 ∧ t.conf = 0#8 ∧
      t.rt = ⟨false, false, 0#3⟩ ∧ t.rsp = ⟨false, .done, false, false, 0#3, 0#8⟩ ∧
      t.tReq = false ∧ t.trace = none ∧ t.cmdReady = true

/-- The same values in `State.reset` (70_reset_and_hazards.md section 1; the model's own fields: log 16). -/
def Obligations.ResetStateHoldsTheResetValues : Prop :=
  let r := State.reset
  r.verified = false ∧ r.switchEnabled = false ∧ r.ledOn = false ∧ r.pressed = [] ∧ r.address = Config.busAddr ∧
  r.fsm = .idle ∧ r.att = 0#4 ∧ r.op.code = 0#4 ∧ r.key = 0#8 ∧ r.act.code = 0#2 ∧ r.led = false ∧ r.abyte = 0#8 ∧
  r.conf = 0#8 ∧ r.rt = ⟨false, false, 0#3⟩ ∧ r.rsp = ⟨false, .done, false, false, 0#3, 0#8⟩ ∧
  r.tReq = false ∧ r.trace = none

/-! ## The whole machine -/

/-- The invariant holds at reset. -/
def Obligations.InvariantHoldsAtReset : Prop := State.reset.Inv

/-- Every step keeps the invariant: the address stays the parameter's, the attempt counter stays at most 10, a round trip
runs armed, for a command, with that command's operands and the encoder's action byte, the outcome and response
registers keep their rules, the codec blocks stay combinational, the store stays within its capacity. -/
def Obligations.StepKeepsTheInvariant : Prop :=
  ∀ s t : State, s.Inv → step s = .next t → t.Inv

/-- 60_exceptions.md section 2 (nothing is a hard fault): no step faults, and only the commit of a Press on a full
finite store, in `KA_VAL` with a valid confirmation, is refused (93 U3, log 13). -/
def Obligations.NoStepFaults : Prop :=
  ∀ s : State, s.Inv →
    (∃ t, step s = .next t) ∨
      (step s = .refused .pressedFull ∧ s.fsm = .kaVal ∧ s.act = .press ∧
        (validateConfirmation s.key s.abyte s.conf).ok = true ∧
        ∃ cap, s.params.pressedCap = some cap ∧ cap ≤ s.pressed.length)

/-- 41_transport_engine.md R129: the commit writes what it says, runs only in `KA_VAL` and only on a valid confirmation, and
nothing else but reset writes `pressed`, `switch_enabled` or `led_on`. -/
def Obligations.OnlyTheCommitWritesTheSession : Prop :=
  ∀ s t : State, step s = .next t → s.port ≠ .rst →
    let valid := s.fsm = .kaVal ∧ s.port.engineActs = true ∧ (validateConfirmation s.key s.abyte s.conf).ok = true
    (valid →
      (s.act = .press → t.pressed = s.pressed ++ [s.key]) ∧
      (s.act = .release → t.pressed = removeFirst s.pressed s.key) ∧
      (s.act = .releaseAll → t.pressed = []) ∧
      (s.act = .test → t.pressed = s.pressed) ∧
      t.switchEnabled = s.conf.getLsbD 5 ∧ t.ledOn = s.conf.getLsbD 4) ∧
    (¬ valid → t.pressed = s.pressed ∧ t.switchEnabled = s.switchEnabled ∧ t.ledOn = s.ledOn)

/-- 10_state.md section 2 (`verified`, `address`): the mode changes only in VERIFY (its identity read, or the end of its probes)
or by reset, and the address never. -/
def Obligations.OnlyVerifyChangesTheMode : Prop :=
  ∀ s t : State, step s = .next t →
    (t.verified ≠ s.verified →
      s.port = .rst ∨ s.fsm = .vRd ∨ (s.fsm = .rtEnd ∧ s.op = .verify ∧ t.verified = false)) ∧
    (s.AddressHeld → t.address = s.address)

/-- 60_exceptions.md section 2 (failures are precise): the step that gives a command its failure response leaves the session as
it was, and no step of a response changes the session. -/
def Obligations.FailureResponsesLeaveTheSession : Prop :=
  ∀ s t : State, step s = .next t → s.port ≠ .rst →
    (t.fsm = .resp → t.rsp.status ≠ .done → t.session = s.session) ∧
    (s.fsm = .resp → t.session = s.session)

/-- 20_memory.md section 4 and 41_transport_engine.md section 5: a step finishes at most one bus operation, the one the
transport port requests, and the finished ones stay as they are (the transcript is the model's, log 18). -/
def Obligations.OneBusOperationPerStep : Prop :=
  ∀ s t : State, step s = .next t →
    t.bus = s.bus ∨
    (∃ err, s.tRw = some false ∧ t.bus = s.bus ++ [BusEvent.write s.tAddr s.tWdata err]) ∨
    (∃ answer, s.tRw = some true ∧ t.bus = s.bus ++ [BusEvent.read s.tAddr answer])

/-- 20_memory.md section 4 and 70_reset_and_hazards.md section 3: the command port is not read while the engine is busy: any
word on it gives the step that none gives. -/
def Obligations.BusyEngineDoesNotReadTheCommandPort : Prop :=
  ∀ (s : State) (w : BitVec 16), s.fsm ≠ .idle →
    step { s with port := .cmd w } = step { s with port := .quiet }

/-- 60_exceptions.md section 3: an unarmed engine changes nothing but its own registers for every command but VERIFY, and
issues no bus operation. -/
def Obligations.UnarmedEngineTouchesNeitherBusNorSession : Prop :=
  ∀ s t : State, s.fsm = .idle → s.verified = false → s.port ≠ .rst → step s = .next t →
    t.bus = s.bus ∧ t.session = s.session ∧ (t.tReq = true → t.fsm = .vRd)

/-- 10_state.md R31: `removeFirst` takes the element of lowest index that equals k, and no other. -/
def Obligations.RemoveFirstTakesTheOldest : Prop :=
  ∀ (xs : List Byte) (k : Byte),
    (k ∈ xs → ∃ older newer, xs = older ++ k :: newer ∧ k ∉ older ∧ removeFirst xs k = older ++ newer) ∧
    (k ∉ xs → removeFirst xs k = xs)

/-- 42_derived_ops.md section 3 (press, then release; the spec marks it derived): the number of occurrences of k is what it was,
and the sequence itself is what it was if k was not in it. -/
def Obligations.PressThenReleaseKeepsTheCount : Prop :=
  ∀ (xs : List Byte) (k : Byte),
    (removeFirst (commitPressed xs .press k) k).count k = xs.count k ∧
    (∀ j, j ≠ k → (removeFirst (commitPressed xs .press k) k).count j = xs.count j) ∧
    (k ∉ xs → removeFirst (commitPressed xs .press k) k = xs)

/-! ## Runs -/

/-- 41_transport_engine.md section 3 (the round trip): after any number of failed key id byte writes and a completed frame, the
engine is at `RT_END` with the outcome of the validation and, if it was valid, the commit made; `att` and all else are
untouched. -/
def Obligations.CompletedRoundTripRun : Prop :=
  ∀ (s : State) (n : Nat) (c : Byte) (i : Input) (rest : List Input),
    s.fsm = .kaWk → s.delay = 0 → (s.act = .press → s.pressedAtCap = false) →
    let v := validateConfirmation s.key s.abyte c
    run (n * failedKeyWriteSteps s + 4)
        (s.withInputs (repeated n (failedKeyWrite s) ++ answeredFrame c ++ i :: rest)) =
      .next ({ s with
        bus := s.bus ++ List.replicate n (BusEvent.write s.address s.key true) ++
          frameTraffic s.address s.key s.abyte c
        conf := c
        rt := ⟨true, v.ok, v.err⟩
        pressed := if v.ok then commitPressed s.pressed s.act s.key else s.pressed
        switchEnabled := if v.ok then c.getLsbD 5 else s.switchEnabled
        ledOn := if v.ok then c.getLsbD 4 else s.ledOn
        fsm := .rtEnd }.withInputs (i :: rest))

/-- 41_transport_engine.md section 3 (the asymmetry of the retries): one error on the action byte write, or on the confirmation
read, aborts the round trip with no retry and no change of the session. -/
def Obligations.AbortedRoundTripRun : Prop :=
  ∀ (s : State) (n : Nat) (i : Input) (rest : List Input), s.fsm = .kaWk → s.delay = 0 →
    let retried := s.bus ++ List.replicate n (BusEvent.write s.address s.key true)
    let aborted (bus : List BusEvent) := { s with bus := bus, rt := ⟨false, false, 0#3⟩, fsm := .rtEnd }
    run (n * failedKeyWriteSteps s + 2)
        (s.withInputs (repeated n (failedKeyWrite s) ++ [.done false 0#8, .done true 0#8] ++ i :: rest)) =
      .next ((aborted (retried ++ [BusEvent.write s.address s.key false, BusEvent.write s.address s.abyte true])).withInputs
        (i :: rest)) ∧
    run (n * failedKeyWriteSteps s + 3)
        (s.withInputs
          (repeated n (failedKeyWrite s) ++ [.done false 0#8, .done false 0#8, .done true 0#8] ++ i :: rest)) =
      .next ((aborted (retried ++
        [BusEvent.write s.address s.key false, BusEvent.write s.address s.abyte false, BusEvent.read s.address none])).withInputs (i :: rest))

/-- 41_transport_engine.md section 3, KEYACTION from its word to its response: the guard passed, any number of failed key id
byte writes, the frame, the confirmation; `Done` with the verdict, and the commit if it was valid. -/
def Obligations.KeyactionRun : Prop :=
  ∀ (s : State) (k : Byte) (a : ActionKind) (l : Bool) (n : Nat) (c : Byte) (i : Input) (rest : List Input),
    s.fsm = .idle → s.verified = true → s.delay = 0 → (a = .press → s.pressedAtCap = false) →
    let ab := encodeActionByte k a l
    let v := validateConfirmation k ab c
    run (1 + n * failedKeyWriteSteps s + 6)
        (s.withInputs (.cmd (packCmd 2#4 l a.code k) :: (repeated n (failedKeyWrite s) ++ answeredFrame c ++
          .quiet :: .quiet :: i :: rest))) =
      .next ({ s with
        op := .keyaction, key := k, act := a, led := l, abyte := ab, conf := c
        bus := s.bus ++ List.replicate n (BusEvent.write s.address k true) ++ frameTraffic s.address k ab c
        rt := ⟨true, v.ok, v.err⟩
        pressed := if v.ok then commitPressed s.pressed a k else s.pressed
        switchEnabled := if v.ok then c.getLsbD 5 else s.switchEnabled
        ledOn := if v.ok then c.getLsbD 4 else s.ledOn
        rsp := ⟨true, .done, false, v.ok, v.err, c⟩ }.withInputs (i :: rest))

/-- 42_derived_ops.md section 1: PRESS k and RELEASE k are keyAction(k, Press, LedOn) and keyAction(k, Release, LedOn): from the
same state, under the same inputs, after every number of steps but 0, the two runs agree in everything but `op`. -/
def Obligations.PressAndReleaseAreKeyactions : Prop :=
  ∀ (s : State) (k : Byte) (n : Nat),
    SameOutcomeButOp (run (n + 1) { s with port := .cmd (packCmd 3#4 false 0#2 k) })
      (run (n + 1) { s with port := .cmd (packCmd 2#4 true 1#2 k) }) ∧
    SameOutcomeButOp (run (n + 1) { s with port := .cmd (packCmd 4#4 false 0#2 k) })
      (run (n + 1) { s with port := .cmd (packCmd 2#4 true 2#2 k) })

/-- 42_derived_ops.md section 2, RELEASEALL: after fewer than ten aborted attempts, each aborted at its action byte write or at
its confirmation read and with any number of failed key id byte writes, and one completed round trip the response is
`rsp_flag` = 1, and `pressed` is emptied exactly if that round trip was valid; `att` counts the aborted ones. -/
def Obligations.ReleaseallRun : Prop :=
  ∀ (s : State) (aborted : List Attempt) (n : Nat) (c : Byte) (i : Input) (rest : List Input),
    s.fsm = .idle → s.verified = true → s.delay = 0 →
    aborted.length < 10 → (∀ a ∈ aborted, a.aborts = true) →
    let last : Attempt := ⟨n, .confirmed c⟩
    let inputs := .cmd 0x5000#16 :: (aborted.flatMap (·.retried s) ++ last.inputs s ++ [.quiet, .quiet])
    let v := validateConfirmation 0#8 0x73#8 c
    run inputs.length (s.withInputs (inputs ++ i :: rest)) =
      .next ({ s with
        op := .releaseall, key := 0#8, act := .releaseAll, led := true, abyte := 0x73#8, conf := c
        att := BitVec.ofNat 4 aborted.length
        bus := s.bus ++ (aborted ++ [last]).flatMap (Attempt.traffic s.address 0#8 0x73#8)
        rt := ⟨true, v.ok, v.err⟩
        pressed := if v.ok then [] else s.pressed
        switchEnabled := if v.ok then c.getLsbD 5 else s.switchEnabled
        ledOn := if v.ok then c.getLsbD 4 else s.ledOn
        rsp := ⟨true, .done, true, v.ok, v.err, c⟩ }.withInputs (i :: rest))

/-- 42_derived_ops.md section 2, KBDEN: the flag answered after a completed probe is `switch_enabled` after the commit: the
confirmation's bit 5 if the probe was valid, the older value if not. The attempts before it abort either way, with any
number of failed key id byte writes. -/
def Obligations.KbdenRun : Prop :=
  ∀ (s : State) (aborted : List Attempt) (n : Nat) (c : Byte) (i : Input) (rest : List Input),
    s.fsm = .idle → s.verified = true → s.delay = 0 →
    aborted.length < 10 → (∀ a ∈ aborted, a.aborts = true) →
    let last : Attempt := ⟨n, .confirmed c⟩
    let inputs := .cmd 0x6000#16 :: (aborted.flatMap (·.retried s) ++ last.inputs s ++ [.quiet, .quiet])
    let v := validateConfirmation 0#8 0x81#8 c
    let switch := if v.ok then c.getLsbD 5 else s.switchEnabled
    run inputs.length (s.withInputs (inputs ++ i :: rest)) =
      .next ({ s with
        op := .kbden, key := 0#8, act := .test, led := false, abyte := 0x81#8, conf := c
        att := BitVec.ofNat 4 aborted.length
        bus := s.bus ++ (aborted ++ [last]).flatMap (Attempt.traffic s.address 0#8 0x81#8)
        rt := ⟨true, v.ok, v.err⟩
        switchEnabled := switch
        ledOn := if v.ok then c.getLsbD 4 else s.ledOn
        rsp := ⟨true, .done, switch, v.ok, v.err, c⟩ }.withInputs (i :: rest))

/-- 42_derived_ops.md section 2 (all ten attempts abort, each at its write or at its read, with any number of failed key id
byte writes): RELEASEALL and KBDEN answer `Done` with `rsp_flag` = 0, whatever `switch_enabled` holds, and leave the
session as it was. -/
def Obligations.TenAbortedAttemptsAnswerFalse : Prop :=
  ∀ (s : State) (w : BitVec 16) (aborted : List Attempt) (last : Attempt) (i : Input) (rest : List Input),
    s.fsm = .idle → s.verified = true → s.delay = 0 → w = 0x5000#16 ∨ w = 0x6000#16 →
    aborted.length = 9 → (∀ a ∈ aborted ++ [last], a.aborts = true) →
    let inputs := .cmd w :: (aborted.flatMap (·.retried s) ++ last.inputs s ++ [.quiet, .quiet])
    let actionByte := if w = 0x5000#16 then 0x73#8 else 0x81#8
    ∃ t : State,
      run inputs.length (s.withInputs (inputs ++ i :: rest)) = .next (t.withInputs (i :: rest)) ∧
      t.rsp = ⟨true, .done, false, false, 0#3, 0#8⟩ ∧ t.session = s.session ∧ t.fsm = .idle ∧ t.att = 10#4 ∧
      t.rt = ⟨false, false, 0#3⟩ ∧ t.conf = s.conf ∧
      t.bus = s.bus ++ (aborted ++ [last]).flatMap (Attempt.traffic s.address 0#8 actionByte)

/-- 41_transport_engine.md section 4: a VERIFY whose ten identity reads all fail disarms the session, after exactly ten reads
and no write; one whose first answered read is another byte disarms it at once, after that read. -/
def Obligations.FailedIdentityReadDisarms : Prop :=
  ∀ (s : State) (i : Input) (rest : List Input), s.fsm = .idle → s.delay = 0 →
    let failed : Response := ⟨true, .done, false, false, 0#3, 0#8⟩
    run (1 + 9 * (s.params.backoffVerifyRead + 2) + 2)
        (s.withInputs (.cmd 0x1000#16 :: (repeated 9 (failedIdentityRead s) ++ [.done true 0#8, .quiet] ++ i :: rest))) =
      .next ({ s with
        op := .verify, att := 10#4, verified := false, rsp := failed
        bus := s.bus ++ List.replicate 10 (BusEvent.read s.address none) }.withInputs (i :: rest)) ∧
    ∀ (j : Nat) (b : Byte), j < 10 → b ≠ 0x82#8 →
      run (1 + j * (s.params.backoffVerifyRead + 2) + 2)
          (s.withInputs (.cmd 0x1000#16 :: (repeated j (failedIdentityRead s) ++ [.done false b, .quiet] ++ i :: rest))) =
        .next ({ s with
          op := .verify, att := BitVec.ofNat 4 j, verified := false, conf := b, rsp := failed
          bus := s.bus ++ List.replicate j (BusEvent.read s.address none) ++ [BusEvent.read s.address (some b)]
          }.withInputs (i :: rest))

/-- 41_transport_engine.md section 4: a VERIFY that reads the identity byte, after fewer than ten errors, and has a successful
probe, after fewer than ten that failed, arms the session in either mode and answers with that probe's outcome; the flags
are recorded if the probe was valid. A probe fails by an abort or by a confirmation that is not accepted; under
`VERIFY_PROBE_SUCCESS` = `completed` every confirmation is accepted. `pressed` is untouched. -/
def Obligations.SuccessfulVerifyArms : Prop :=
  ∀ (s : State) (j : Nat) (failed : List Attempt) (n : Nat) (c : Byte) (i : Input) (rest : List Input),
    s.fsm = .idle → s.delay = 0 → j < 10 →
    failed.length < 10 → (∀ a ∈ failed, a.failsProbe s.params.probeSuccess = true) →
    probeAccepts s.params.probeSuccess c = true →
    let last : Attempt := ⟨n, .confirmed c⟩
    let inputs := .cmd 0x1000#16 :: (repeated j (failedIdentityRead s) ++ .done false 0x82#8 ::
      (failed.flatMap (·.retried s) ++ last.inputs s ++ [.quiet, .quiet]))
    let v := validateConfirmation 0#8 0x81#8 c
    run inputs.length (s.withInputs (inputs ++ i :: rest)) =
      .next ({ s with
        op := .verify, key := 0#8, act := .test, led := false, abyte := 0x81#8, conf := c
        att := BitVec.ofNat 4 failed.length
        verified := true
        switchEnabled := if v.ok then c.getLsbD 5 else s.switchEnabled
        ledOn := if v.ok then c.getLsbD 4 else s.ledOn
        rt := ⟨true, v.ok, v.err⟩
        rsp := ⟨true, .done, true, v.ok, v.err, c⟩
        bus := s.bus ++ List.replicate j (BusEvent.read s.address none) ++ BusEvent.read s.address (some 0x82#8) ::
          (failed ++ [last]).flatMap (Attempt.traffic s.address 0#8 0x81#8) }.withInputs (i :: rest))

/-- 41_transport_engine.md section 4: a VERIFY whose ten probes all fail, by an abort or by a confirmation that is not
accepted, disarms the session with `rsp_flag` = 0, after exactly ten probes; the flags and `pressed` are untouched.
That `rsp_err` and `rsp_confirm` are 0 after a completed, invalid probe is the model's reading of R84 beside R131, R140
and R185 (DEDUCED, log 31). -/
def Obligations.TenFailedProbesDisarm : Prop :=
  ∀ (s : State) (j : Nat) (failed : List Attempt) (last : Attempt) (i : Input) (rest : List Input),
    s.fsm = .idle → s.delay = 0 → j < 10 →
    failed.length = 9 → (∀ a ∈ failed ++ [last], a.failsProbe s.params.probeSuccess = true) →
    let inputs := .cmd 0x1000#16 :: (repeated j (failedIdentityRead s) ++ .done false 0x82#8 ::
      (failed.flatMap (·.retried s) ++ last.inputs s ++ [.quiet, .quiet]))
    run inputs.length (s.withInputs (inputs ++ i :: rest)) =
      .next ({ s with
        op := .verify, key := 0#8, act := .test, led := false, abyte := 0x81#8
        conf := (failed ++ [last]).foldl Attempt.confAfter 0x82#8
        att := 10#4
        verified := false
        rt := last.outcome 0#8 0x81#8
        rsp := ⟨true, .done, false, false, 0#3, 0#8⟩
        bus := s.bus ++ List.replicate j (BusEvent.read s.address none) ++ BusEvent.read s.address (some 0x82#8) ::
          (failed ++ [last]).flatMap (Attempt.traffic s.address 0#8 0x81#8) }.withInputs (i :: rest))

/-- 70_reset_and_hazards.md section 3 (non-terminating waits): however often the key id byte write fails, the engine only writes
it again: it is back in `KA_WK`, not ready, nothing else changed; and however long a request goes unanswered, the
engine waits. -/
def Obligations.TheTwoWaitsNeverEndByThemselves : Prop :=
  ∀ (s : State) (n : Nat) (i : Input) (rest : List Input),
    (s.fsm = .kaWk → s.delay = 0 →
      run (n * failedKeyWriteSteps s) (s.withInputs (repeated n (failedKeyWrite s) ++ i :: rest)) =
        .next ({ s with bus := s.bus ++ List.replicate n (BusEvent.write s.address s.key true) }.withInputs (i :: rest))) ∧
    (s.tReq = true →
      run n (s.withInputs (List.replicate n .quiet ++ i :: rest)) = .next (s.withInputs (i :: rest)))

/-- 60_exceptions.md section 4: a backoff has no effect but time, and it ends: after its steps the engine is at the read, the key
id byte write or a new round trip (how many steps is the model's count, log 11). -/
def Obligations.BackoffOnlyTakesTime : Prop :=
  ∀ (s : State) (i : Input) (rest : List Input),
    (s.fsm = .vBk ∨ s.fsm = .kaKb ∨ (s.fsm = .atBk ∧ s.ActionByteEncoded)) →
    run (s.delay + 1) (s.withInputs (List.replicate (s.delay + 1) .quiet ++ i :: rest)) =
      .next ({ s with
        delay := 0
        fsm := if s.fsm = Fsm.vBk then Fsm.vRd else Fsm.kaWk }.withInputs (i :: rest))
end

