-- ==== Sys2Proof/Laws/Operands.lean ====
section
/-! SUPPORT. The fields of a packed word are the operands it was packed from, and the codes of actions and statuses are read
back as what they stand for. -/

namespace Sys2Proof.Machine

@[simp] theorem bit_getLsbD_zero (b : Bool) : (bit b).getLsbD 0 = b := by cases b <;> rfl

@[simp] theorem actionOfCode_code (a : ActionKind) : actionOfCode a.code = a := by cases a <;> rfl

@[simp] theorem code_actionOfCode (c : BitVec 2) : (actionOfCode c).code = c := by revert c; decide

@[simp] theorem statusOfCode_code (s : Status) : statusOfCode s.code = some s := by cases s <;> rfl

theorem code_of_statusOfCode {c : BitVec 3} {s : Status} (h : statusOfCode c = some s) : s.code = c := by
  revert c; cases s <;> decide

theorem popcount_le_eight (b : Byte) : popcount b ≤ 8 := by revert b; decide

/-! `packActionByte` -/

@[simp] theorem packActionByte_parity_bit (parity led : Bool) (action : ActionKind) (checksum : BitVec 4) : (packActionByte parity led action checksum)[7] = parity := by
  rw [← BitVec.getLsbD_eq_getElem]
  change BitVec.getLsbD ((((bit parity) ++ bit led) ++ action.code) ++ checksum : BitVec (1 + 1 + 2 + 4)) 7 = _
  simp only [BitVec.getLsbD_append]
  split_ifs <;> first | omega | simp

@[simp] theorem packActionByte_led_bit (parity led : Bool) (action : ActionKind) (checksum : BitVec 4) : (packActionByte parity led action checksum)[6] = led := by
  rw [← BitVec.getLsbD_eq_getElem]
  change BitVec.getLsbD ((((bit parity) ++ bit led) ++ action.code) ++ checksum : BitVec (1 + 1 + 2 + 4)) 6 = _
  simp only [BitVec.getLsbD_append]
  split_ifs <;> first | omega | simp

@[simp] theorem packActionByte_action (parity led : Bool) (action : ActionKind) (checksum : BitVec 4) :
    (packActionByte parity led action checksum).extractLsb' 4 2 = action.code := by
  change BitVec.extractLsb' 4 2 ((((bit parity) ++ bit led) ++ action.code) ++ checksum : BitVec (1 + 1 + 2 + 4)) = _
  apply BitVec.eq_of_getLsbD_eq
  intro i hi
  simp only [BitVec.getLsbD_extractLsb', BitVec.getLsbD_append, hi, decide_true, Bool.true_and]
  split_ifs <;> first | omega | (congr 1; omega)

@[simp] theorem packActionByte_checksum (parity led : Bool) (action : ActionKind) (checksum : BitVec 4) :
    (packActionByte parity led action checksum).extractLsb' 0 4 = checksum := by
  change BitVec.extractLsb' 0 4 ((((bit parity) ++ bit led) ++ action.code) ++ checksum : BitVec (1 + 1 + 2 + 4)) = _
  apply BitVec.eq_of_getLsbD_eq
  intro i hi
  simp only [BitVec.getLsbD_extractLsb', BitVec.getLsbD_append, hi, decide_true, Bool.true_and]
  split_ifs <;> first | omega | (congr 1; omega)

/-! `packConfirm` -/

@[simp] theorem packConfirm_parity_bit (parity error switch led : Bool) (checksum : BitVec 4) : (packConfirm parity error switch led checksum)[7] = parity := by
  rw [← BitVec.getLsbD_eq_getElem]
  change BitVec.getLsbD (((((bit parity) ++ bit error) ++ bit switch) ++ bit led) ++ checksum : BitVec (1 + 1 + 1 + 1 + 4)) 7 = _
  simp only [BitVec.getLsbD_append]
  split_ifs <;> first | omega | simp

@[simp] theorem packConfirm_error_bit (parity error switch led : Bool) (checksum : BitVec 4) : (packConfirm parity error switch led checksum)[6] = error := by
  rw [← BitVec.getLsbD_eq_getElem]
  change BitVec.getLsbD (((((bit parity) ++ bit error) ++ bit switch) ++ bit led) ++ checksum : BitVec (1 + 1 + 1 + 1 + 4)) 6 = _
  simp only [BitVec.getLsbD_append]
  split_ifs <;> first | omega | simp

@[simp] theorem packConfirm_switch_bit (parity error switch led : Bool) (checksum : BitVec 4) : (packConfirm parity error switch led checksum)[5] = switch := by
  rw [← BitVec.getLsbD_eq_getElem]
  change BitVec.getLsbD (((((bit parity) ++ bit error) ++ bit switch) ++ bit led) ++ checksum : BitVec (1 + 1 + 1 + 1 + 4)) 5 = _
  simp only [BitVec.getLsbD_append]
  split_ifs <;> first | omega | simp

@[simp] theorem packConfirm_led_bit (parity error switch led : Bool) (checksum : BitVec 4) : (packConfirm parity error switch led checksum)[4] = led := by
  rw [← BitVec.getLsbD_eq_getElem]
  change BitVec.getLsbD (((((bit parity) ++ bit error) ++ bit switch) ++ bit led) ++ checksum : BitVec (1 + 1 + 1 + 1 + 4)) 4 = _
  simp only [BitVec.getLsbD_append]
  split_ifs <;> first | omega | simp

@[simp] theorem packConfirm_checksum (parity error switch led : Bool) (checksum : BitVec 4) :
    (packConfirm parity error switch led checksum).extractLsb' 0 4 = checksum := by
  change BitVec.extractLsb' 0 4 (((((bit parity) ++ bit error) ++ bit switch) ++ bit led) ++ checksum : BitVec (1 + 1 + 1 + 1 + 4)) = _
  apply BitVec.eq_of_getLsbD_eq
  intro i hi
  simp only [BitVec.getLsbD_extractLsb', BitVec.getLsbD_append, hi, decide_true, Bool.true_and]
  split_ifs <;> first | omega | (congr 1; omega)

/-! `packFrame` -/

@[simp] theorem packFrame_key (key actionByte : Byte) :
    (packFrame key actionByte).extractLsb' 8 8 = key := by
  change BitVec.extractLsb' 8 8 ((key) ++ actionByte : BitVec (8 + 8)) = _
  apply BitVec.eq_of_getLsbD_eq
  intro i hi
  simp only [BitVec.getLsbD_extractLsb', BitVec.getLsbD_append, hi, decide_true, Bool.true_and]
  split_ifs <;> first | omega | (congr 1; omega)

@[simp] theorem packFrame_actionByte (key actionByte : Byte) :
    (packFrame key actionByte).extractLsb' 0 8 = actionByte := by
  change BitVec.extractLsb' 0 8 ((key) ++ actionByte : BitVec (8 + 8)) = _
  apply BitVec.eq_of_getLsbD_eq
  intro i hi
  simp only [BitVec.getLsbD_extractLsb', BitVec.getLsbD_append, hi, decide_true, Bool.true_and]
  split_ifs <;> first | omega | (congr 1; omega)

/-! `packCmd` -/

@[simp] theorem packCmd_op (op : BitVec 4) (led : Bool) (action : BitVec 2) (key : Byte) :
    (packCmd op led action key).extractLsb' 12 4 = op := by
  change BitVec.extractLsb' 12 4 (((((op) ++ 0#1) ++ bit led) ++ action) ++ key : BitVec (4 + 1 + 1 + 2 + 8)) = _
  apply BitVec.eq_of_getLsbD_eq
  intro i hi
  simp only [BitVec.getLsbD_extractLsb', BitVec.getLsbD_append, hi, decide_true, Bool.true_and]
  split_ifs <;> first | omega | (congr 1; omega)

@[simp] theorem packCmd_zero (op : BitVec 4) (led : Bool) (action : BitVec 2) (key : Byte) :
    (packCmd op led action key).extractLsb' 11 1 = 0#1 := by
  change BitVec.extractLsb' 11 1 (((((op) ++ 0#1) ++ bit led) ++ action) ++ key : BitVec (4 + 1 + 1 + 2 + 8)) = _
  apply BitVec.eq_of_getLsbD_eq
  intro i hi
  simp only [BitVec.getLsbD_extractLsb', BitVec.getLsbD_append, hi, decide_true, Bool.true_and]
  split_ifs <;> first | omega | (congr 1; omega)

@[simp] theorem packCmd_zero_bit (op : BitVec 4) (led : Bool) (action : BitVec 2) (key : Byte) : (packCmd op led action key)[11] = false := by
  rw [← BitVec.getLsbD_eq_getElem]
  change BitVec.getLsbD (((((op) ++ 0#1) ++ bit led) ++ action) ++ key : BitVec (4 + 1 + 1 + 2 + 8)) 11 = _
  simp only [BitVec.getLsbD_append]
  split_ifs <;> first | omega | simp

@[simp] theorem packCmd_led_bit (op : BitVec 4) (led : Bool) (action : BitVec 2) (key : Byte) : (packCmd op led action key)[10] = led := by
  rw [← BitVec.getLsbD_eq_getElem]
  change BitVec.getLsbD (((((op) ++ 0#1) ++ bit led) ++ action) ++ key : BitVec (4 + 1 + 1 + 2 + 8)) 10 = _
  simp only [BitVec.getLsbD_append]
  split_ifs <;> first | omega | simp

@[simp] theorem packCmd_action (op : BitVec 4) (led : Bool) (action : BitVec 2) (key : Byte) :
    (packCmd op led action key).extractLsb' 8 2 = action := by
  change BitVec.extractLsb' 8 2 (((((op) ++ 0#1) ++ bit led) ++ action) ++ key : BitVec (4 + 1 + 1 + 2 + 8)) = _
  apply BitVec.eq_of_getLsbD_eq
  intro i hi
  simp only [BitVec.getLsbD_extractLsb', BitVec.getLsbD_append, hi, decide_true, Bool.true_and]
  split_ifs <;> first | omega | (congr 1; omega)

@[simp] theorem packCmd_key (op : BitVec 4) (led : Bool) (action : BitVec 2) (key : Byte) :
    (packCmd op led action key).extractLsb' 0 8 = key := by
  change BitVec.extractLsb' 0 8 (((((op) ++ 0#1) ++ bit led) ++ action) ++ key : BitVec (4 + 1 + 1 + 2 + 8)) = _
  apply BitVec.eq_of_getLsbD_eq
  intro i hi
  simp only [BitVec.getLsbD_extractLsb', BitVec.getLsbD_append, hi, decide_true, Bool.true_and]
  split_ifs <;> first | omega | (congr 1; omega)

/-! `packEncIn` -/

@[simp] theorem packEncIn_led_bit (led : Bool) (action : ActionKind) (key : Byte) : (packEncIn led action key)[10] = led := by
  rw [← BitVec.getLsbD_eq_getElem]
  change BitVec.getLsbD (((bit led) ++ action.code) ++ key : BitVec (1 + 2 + 8)) 10 = _
  simp only [BitVec.getLsbD_append]
  split_ifs <;> first | omega | simp

@[simp] theorem packEncIn_action (led : Bool) (action : ActionKind) (key : Byte) :
    (packEncIn led action key).extractLsb' 8 2 = action.code := by
  change BitVec.extractLsb' 8 2 (((bit led) ++ action.code) ++ key : BitVec (1 + 2 + 8)) = _
  apply BitVec.eq_of_getLsbD_eq
  intro i hi
  simp only [BitVec.getLsbD_extractLsb', BitVec.getLsbD_append, hi, decide_true, Bool.true_and]
  split_ifs <;> first | omega | (congr 1; omega)

@[simp] theorem packEncIn_key (led : Bool) (action : ActionKind) (key : Byte) :
    (packEncIn led action key).extractLsb' 0 8 = key := by
  change BitVec.extractLsb' 0 8 (((bit led) ++ action.code) ++ key : BitVec (1 + 2 + 8)) = _
  apply BitVec.eq_of_getLsbD_eq
  intro i hi
  simp only [BitVec.getLsbD_extractLsb', BitVec.getLsbD_append, hi, decide_true, Bool.true_and]
  split_ifs <;> first | omega | (congr 1; omega)

/-! `packValIn` -/

@[simp] theorem packValIn_key (key actionByte confirm : Byte) :
    (packValIn key actionByte confirm).extractLsb' 16 8 = key := by
  change BitVec.extractLsb' 16 8 (((key) ++ actionByte) ++ confirm : BitVec (8 + 8 + 8)) = _
  apply BitVec.eq_of_getLsbD_eq
  intro i hi
  simp only [BitVec.getLsbD_extractLsb', BitVec.getLsbD_append, hi, decide_true, Bool.true_and]
  split_ifs <;> first | omega | (congr 1; omega)

@[simp] theorem packValIn_actionByte (key actionByte confirm : Byte) :
    (packValIn key actionByte confirm).extractLsb' 8 8 = actionByte := by
  change BitVec.extractLsb' 8 8 (((key) ++ actionByte) ++ confirm : BitVec (8 + 8 + 8)) = _
  apply BitVec.eq_of_getLsbD_eq
  intro i hi
  simp only [BitVec.getLsbD_extractLsb', BitVec.getLsbD_append, hi, decide_true, Bool.true_and]
  split_ifs <;> first | omega | (congr 1; omega)

@[simp] theorem packValIn_confirm (key actionByte confirm : Byte) :
    (packValIn key actionByte confirm).extractLsb' 0 8 = confirm := by
  change BitVec.extractLsb' 0 8 (((key) ++ actionByte) ++ confirm : BitVec (8 + 8 + 8)) = _
  apply BitVec.eq_of_getLsbD_eq
  intro i hi
  simp only [BitVec.getLsbD_extractLsb', BitVec.getLsbD_append, hi, decide_true, Bool.true_and]
  split_ifs <;> first | omega | (congr 1; omega)

/-! `packTportWrite` -/

@[simp] theorem packTportWrite_write (addr : Addr) (data : Byte) :
    (packTportWrite addr data).extractLsb' 15 1 = 0#1 := by
  change BitVec.extractLsb' 15 1 (((0#1) ++ addr) ++ data : BitVec (1 + 7 + 8)) = _
  apply BitVec.eq_of_getLsbD_eq
  intro i hi
  simp only [BitVec.getLsbD_extractLsb', BitVec.getLsbD_append, hi, decide_true, Bool.true_and]
  split_ifs <;> first | omega | (congr 1; omega)

@[simp] theorem packTportWrite_write_bit (addr : Addr) (data : Byte) : (packTportWrite addr data)[15] = false := by
  rw [← BitVec.getLsbD_eq_getElem]
  change BitVec.getLsbD (((0#1) ++ addr) ++ data : BitVec (1 + 7 + 8)) 15 = _
  simp only [BitVec.getLsbD_append]
  split_ifs <;> first | omega | simp

@[simp] theorem packTportWrite_addr (addr : Addr) (data : Byte) :
    (packTportWrite addr data).extractLsb' 8 7 = addr := by
  change BitVec.extractLsb' 8 7 (((0#1) ++ addr) ++ data : BitVec (1 + 7 + 8)) = _
  apply BitVec.eq_of_getLsbD_eq
  intro i hi
  simp only [BitVec.getLsbD_extractLsb', BitVec.getLsbD_append, hi, decide_true, Bool.true_and]
  split_ifs <;> first | omega | (congr 1; omega)

@[simp] theorem packTportWrite_data (addr : Addr) (data : Byte) :
    (packTportWrite addr data).extractLsb' 0 8 = data := by
  change BitVec.extractLsb' 0 8 (((0#1) ++ addr) ++ data : BitVec (1 + 7 + 8)) = _
  apply BitVec.eq_of_getLsbD_eq
  intro i hi
  simp only [BitVec.getLsbD_extractLsb', BitVec.getLsbD_append, hi, decide_true, Bool.true_and]
  split_ifs <;> first | omega | (congr 1; omega)

/-! `packTportRead` -/

@[simp] theorem packTportRead_read (addr : Addr) :
    (packTportRead addr).extractLsb' 7 1 = 1#1 := by
  change BitVec.extractLsb' 7 1 ((1#1) ++ addr : BitVec (1 + 7)) = _
  apply BitVec.eq_of_getLsbD_eq
  intro i hi
  simp only [BitVec.getLsbD_extractLsb', BitVec.getLsbD_append, hi, decide_true, Bool.true_and]
  split_ifs <;> first | omega | (congr 1; omega)

@[simp] theorem packTportRead_read_bit (addr : Addr) : (packTportRead addr)[7] = true := by
  rw [← BitVec.getLsbD_eq_getElem]
  change BitVec.getLsbD ((1#1) ++ addr : BitVec (1 + 7)) 7 = _
  simp only [BitVec.getLsbD_append]
  split_ifs <;> first | omega | simp

@[simp] theorem packTportRead_addr (addr : Addr) :
    (packTportRead addr).extractLsb' 0 7 = addr := by
  change BitVec.extractLsb' 0 7 ((1#1) ++ addr : BitVec (1 + 7)) = _
  apply BitVec.eq_of_getLsbD_eq
  intro i hi
  simp only [BitVec.getLsbD_extractLsb', BitVec.getLsbD_append, hi, decide_true, Bool.true_and]
  split_ifs <;> first | omega | (congr 1; omega)

/-! `packRsp` -/

@[simp] theorem packRsp_valid_bit (valid : Bool) (status : BitVec 3) (flag ok : Bool) (err : BitVec 3) (confirm : Byte) : (packRsp valid status flag ok err confirm)[16] = valid := by
  rw [← BitVec.getLsbD_eq_getElem]
  change BitVec.getLsbD ((((((bit valid) ++ status) ++ bit flag) ++ bit ok) ++ err) ++ confirm : BitVec (1 + 3 + 1 + 1 + 3 + 8)) 16 = _
  simp only [BitVec.getLsbD_append]
  split_ifs <;> first | omega | simp

@[simp] theorem packRsp_status (valid : Bool) (status : BitVec 3) (flag ok : Bool) (err : BitVec 3) (confirm : Byte) :
    (packRsp valid status flag ok err confirm).extractLsb' 13 3 = status := by
  change BitVec.extractLsb' 13 3 ((((((bit valid) ++ status) ++ bit flag) ++ bit ok) ++ err) ++ confirm : BitVec (1 + 3 + 1 + 1 + 3 + 8)) = _
  apply BitVec.eq_of_getLsbD_eq
  intro i hi
  simp only [BitVec.getLsbD_extractLsb', BitVec.getLsbD_append, hi, decide_true, Bool.true_and]
  split_ifs <;> first | omega | (congr 1; omega)

@[simp] theorem packRsp_flag_bit (valid : Bool) (status : BitVec 3) (flag ok : Bool) (err : BitVec 3) (confirm : Byte) : (packRsp valid status flag ok err confirm)[12] = flag := by
  rw [← BitVec.getLsbD_eq_getElem]
  change BitVec.getLsbD ((((((bit valid) ++ status) ++ bit flag) ++ bit ok) ++ err) ++ confirm : BitVec (1 + 3 + 1 + 1 + 3 + 8)) 12 = _
  simp only [BitVec.getLsbD_append]
  split_ifs <;> first | omega | simp

@[simp] theorem packRsp_ok_bit (valid : Bool) (status : BitVec 3) (flag ok : Bool) (err : BitVec 3) (confirm : Byte) : (packRsp valid status flag ok err confirm)[11] = ok := by
  rw [← BitVec.getLsbD_eq_getElem]
  change BitVec.getLsbD ((((((bit valid) ++ status) ++ bit flag) ++ bit ok) ++ err) ++ confirm : BitVec (1 + 3 + 1 + 1 + 3 + 8)) 11 = _
  simp only [BitVec.getLsbD_append]
  split_ifs <;> first | omega | simp

@[simp] theorem packRsp_err (valid : Bool) (status : BitVec 3) (flag ok : Bool) (err : BitVec 3) (confirm : Byte) :
    (packRsp valid status flag ok err confirm).extractLsb' 8 3 = err := by
  change BitVec.extractLsb' 8 3 ((((((bit valid) ++ status) ++ bit flag) ++ bit ok) ++ err) ++ confirm : BitVec (1 + 3 + 1 + 1 + 3 + 8)) = _
  apply BitVec.eq_of_getLsbD_eq
  intro i hi
  simp only [BitVec.getLsbD_extractLsb', BitVec.getLsbD_append, hi, decide_true, Bool.true_and]
  split_ifs <;> first | omega | (congr 1; omega)

@[simp] theorem packRsp_confirm (valid : Bool) (status : BitVec 3) (flag ok : Bool) (err : BitVec 3) (confirm : Byte) :
    (packRsp valid status flag ok err confirm).extractLsb' 0 8 = confirm := by
  change BitVec.extractLsb' 0 8 ((((((bit valid) ++ status) ++ bit flag) ++ bit ok) ++ err) ++ confirm : BitVec (1 + 3 + 1 + 1 + 3 + 8)) = _
  apply BitVec.eq_of_getLsbD_eq
  intro i hi
  simp only [BitVec.getLsbD_extractLsb', BitVec.getLsbD_append, hi, decide_true, Bool.true_and]
  split_ifs <;> first | omega | (congr 1; omega)

/-! The three error bits of VALIDATE -/

theorem validationErr_checksum (k ab c : Byte) : (validationErr k ab c).getLsbD 0 = checksumMismatch k ab c := by
  unfold validationErr
  cases remoteErrorFlag c <;> cases parityMismatch c <;> cases checksumMismatch k ab c <;> rfl

theorem validationErr_parity (k ab c : Byte) : (validationErr k ab c).getLsbD 1 = parityMismatch c := by
  unfold validationErr
  cases remoteErrorFlag c <;> cases parityMismatch c <;> cases checksumMismatch k ab c <;> rfl

theorem validationErr_remote (k ab c : Byte) : (validationErr k ab c).getLsbD 2 = remoteErrorFlag c := by
  unfold validationErr
  cases remoteErrorFlag c <;> cases parityMismatch c <;> cases checksumMismatch k ab c <;> rfl

/-- `ok` is 1 exactly when no check failed (40_frame_codec.md R106). -/
theorem validateConfirmation_ok_iff (k ab c : Byte) :
    (validateConfirmation k ab c).ok = true ↔
      checksumMismatch k ab c = false ∧ parityMismatch c = false ∧ remoteErrorFlag c = false := by
  simp only [validateConfirmation, validationErr]
  cases remoteErrorFlag c <;> cases parityMismatch c <;> cases checksumMismatch k ab c <;> decide

end Sys2Proof.Machine
end

