-- ==== Sys2Proof/Laws/State.lean ====
section
/-! SUPPORT. One lemma per field per update of the state, so that no proof unfolds a record update. -/

namespace Sys2Proof.Machine

/-! `respond` -/
@[simp] theorem State.respond_address (s : State) (st : Status) (f o : Bool) (e : BitVec 3) (c : Byte) : (s.respond st f o e c).address = s.address := rfl
@[simp] theorem State.respond_verified (s : State) (st : Status) (f o : Bool) (e : BitVec 3) (c : Byte) : (s.respond st f o e c).verified = s.verified := rfl
@[simp] theorem State.respond_switchEnabled (s : State) (st : Status) (f o : Bool) (e : BitVec 3) (c : Byte) : (s.respond st f o e c).switchEnabled = s.switchEnabled := rfl
@[simp] theorem State.respond_ledOn (s : State) (st : Status) (f o : Bool) (e : BitVec 3) (c : Byte) : (s.respond st f o e c).ledOn = s.ledOn := rfl
@[simp] theorem State.respond_pressed (s : State) (st : Status) (f o : Bool) (e : BitVec 3) (c : Byte) : (s.respond st f o e c).pressed = s.pressed := rfl
@[simp] theorem State.respond_op (s : State) (st : Status) (f o : Bool) (e : BitVec 3) (c : Byte) : (s.respond st f o e c).op = s.op := rfl
@[simp] theorem State.respond_key (s : State) (st : Status) (f o : Bool) (e : BitVec 3) (c : Byte) : (s.respond st f o e c).key = s.key := rfl
@[simp] theorem State.respond_act (s : State) (st : Status) (f o : Bool) (e : BitVec 3) (c : Byte) : (s.respond st f o e c).act = s.act := rfl
@[simp] theorem State.respond_led (s : State) (st : Status) (f o : Bool) (e : BitVec 3) (c : Byte) : (s.respond st f o e c).led = s.led := rfl
@[simp] theorem State.respond_abyte (s : State) (st : Status) (f o : Bool) (e : BitVec 3) (c : Byte) : (s.respond st f o e c).abyte = s.abyte := rfl
@[simp] theorem State.respond_conf (s : State) (st : Status) (f o : Bool) (e : BitVec 3) (c : Byte) : (s.respond st f o e c).conf = s.conf := rfl
@[simp] theorem State.respond_att (s : State) (st : Status) (f o : Bool) (e : BitVec 3) (c : Byte) : (s.respond st f o e c).att = s.att := rfl
@[simp] theorem State.respond_fsm (s : State) (st : Status) (f o : Bool) (e : BitVec 3) (c : Byte) : (s.respond st f o e c).fsm = .resp := rfl
@[simp] theorem State.respond_rt (s : State) (st : Status) (f o : Bool) (e : BitVec 3) (c : Byte) : (s.respond st f o e c).rt = s.rt := rfl
@[simp] theorem State.respond_rsp (s : State) (st : Status) (f o : Bool) (e : BitVec 3) (c : Byte) : (s.respond st f o e c).rsp = ⟨false, st, f, o, e, c⟩ := rfl
@[simp] theorem State.respond_enc (s : State) (st : Status) (f o : Bool) (e : BitVec 3) (c : Byte) : (s.respond st f o e c).enc = s.enc := rfl
@[simp] theorem State.respond_val (s : State) (st : Status) (f o : Bool) (e : BitVec 3) (c : Byte) : (s.respond st f o e c).val = s.val := rfl
@[simp] theorem State.respond_bus (s : State) (st : Status) (f o : Bool) (e : BitVec 3) (c : Byte) : (s.respond st f o e c).bus = s.bus := rfl
@[simp] theorem State.respond_port (s : State) (st : Status) (f o : Bool) (e : BitVec 3) (c : Byte) : (s.respond st f o e c).port = s.port := rfl
@[simp] theorem State.respond_script (s : State) (st : Status) (f o : Bool) (e : BitVec 3) (c : Byte) : (s.respond st f o e c).script = s.script := rfl
@[simp] theorem State.respond_drawn (s : State) (st : Status) (f o : Bool) (e : BitVec 3) (c : Byte) : (s.respond st f o e c).drawn = s.drawn := rfl
@[simp] theorem State.respond_delay (s : State) (st : Status) (f o : Bool) (e : BitVec 3) (c : Byte) : (s.respond st f o e c).delay = s.delay := rfl
@[simp] theorem State.respond_params (s : State) (st : Status) (f o : Bool) (e : BitVec 3) (c : Byte) : (s.respond st f o e c).params = s.params := rfl

/-! `respondStatus` -/
@[simp] theorem State.respondStatus_address (s : State) (st : Status) : (s.respondStatus st).address = s.address := rfl
@[simp] theorem State.respondStatus_verified (s : State) (st : Status) : (s.respondStatus st).verified = s.verified := rfl
@[simp] theorem State.respondStatus_switchEnabled (s : State) (st : Status) : (s.respondStatus st).switchEnabled = s.switchEnabled := rfl
@[simp] theorem State.respondStatus_ledOn (s : State) (st : Status) : (s.respondStatus st).ledOn = s.ledOn := rfl
@[simp] theorem State.respondStatus_pressed (s : State) (st : Status) : (s.respondStatus st).pressed = s.pressed := rfl
@[simp] theorem State.respondStatus_op (s : State) (st : Status) : (s.respondStatus st).op = s.op := rfl
@[simp] theorem State.respondStatus_key (s : State) (st : Status) : (s.respondStatus st).key = s.key := rfl
@[simp] theorem State.respondStatus_act (s : State) (st : Status) : (s.respondStatus st).act = s.act := rfl
@[simp] theorem State.respondStatus_led (s : State) (st : Status) : (s.respondStatus st).led = s.led := rfl
@[simp] theorem State.respondStatus_abyte (s : State) (st : Status) : (s.respondStatus st).abyte = s.abyte := rfl
@[simp] theorem State.respondStatus_conf (s : State) (st : Status) : (s.respondStatus st).conf = s.conf := rfl
@[simp] theorem State.respondStatus_att (s : State) (st : Status) : (s.respondStatus st).att = s.att := rfl
@[simp] theorem State.respondStatus_fsm (s : State) (st : Status) : (s.respondStatus st).fsm = .resp := rfl
@[simp] theorem State.respondStatus_rt (s : State) (st : Status) : (s.respondStatus st).rt = s.rt := rfl
@[simp] theorem State.respondStatus_rsp (s : State) (st : Status) : (s.respondStatus st).rsp = ⟨false, st, false, false, 0#3, 0#8⟩ := rfl
@[simp] theorem State.respondStatus_enc (s : State) (st : Status) : (s.respondStatus st).enc = s.enc := rfl
@[simp] theorem State.respondStatus_val (s : State) (st : Status) : (s.respondStatus st).val = s.val := rfl
@[simp] theorem State.respondStatus_bus (s : State) (st : Status) : (s.respondStatus st).bus = s.bus := rfl
@[simp] theorem State.respondStatus_port (s : State) (st : Status) : (s.respondStatus st).port = s.port := rfl
@[simp] theorem State.respondStatus_script (s : State) (st : Status) : (s.respondStatus st).script = s.script := rfl
@[simp] theorem State.respondStatus_drawn (s : State) (st : Status) : (s.respondStatus st).drawn = s.drawn := rfl
@[simp] theorem State.respondStatus_delay (s : State) (st : Status) : (s.respondStatus st).delay = s.delay := rfl
@[simp] theorem State.respondStatus_params (s : State) (st : Status) : (s.respondStatus st).params = s.params := rfl

/-! `respondRoundTrip` -/
@[simp] theorem State.respondRoundTrip_address (s : State) (f : Bool) : (s.respondRoundTrip f).address = s.address := rfl
@[simp] theorem State.respondRoundTrip_verified (s : State) (f : Bool) : (s.respondRoundTrip f).verified = s.verified := rfl
@[simp] theorem State.respondRoundTrip_switchEnabled (s : State) (f : Bool) : (s.respondRoundTrip f).switchEnabled = s.switchEnabled := rfl
@[simp] theorem State.respondRoundTrip_ledOn (s : State) (f : Bool) : (s.respondRoundTrip f).ledOn = s.ledOn := rfl
@[simp] theorem State.respondRoundTrip_pressed (s : State) (f : Bool) : (s.respondRoundTrip f).pressed = s.pressed := rfl
@[simp] theorem State.respondRoundTrip_op (s : State) (f : Bool) : (s.respondRoundTrip f).op = s.op := rfl
@[simp] theorem State.respondRoundTrip_key (s : State) (f : Bool) : (s.respondRoundTrip f).key = s.key := rfl
@[simp] theorem State.respondRoundTrip_act (s : State) (f : Bool) : (s.respondRoundTrip f).act = s.act := rfl
@[simp] theorem State.respondRoundTrip_led (s : State) (f : Bool) : (s.respondRoundTrip f).led = s.led := rfl
@[simp] theorem State.respondRoundTrip_abyte (s : State) (f : Bool) : (s.respondRoundTrip f).abyte = s.abyte := rfl
@[simp] theorem State.respondRoundTrip_conf (s : State) (f : Bool) : (s.respondRoundTrip f).conf = s.conf := rfl
@[simp] theorem State.respondRoundTrip_att (s : State) (f : Bool) : (s.respondRoundTrip f).att = s.att := rfl
@[simp] theorem State.respondRoundTrip_fsm (s : State) (f : Bool) : (s.respondRoundTrip f).fsm = .resp := rfl
@[simp] theorem State.respondRoundTrip_rt (s : State) (f : Bool) : (s.respondRoundTrip f).rt = s.rt := rfl
@[simp] theorem State.respondRoundTrip_rsp (s : State) (f : Bool) : (s.respondRoundTrip f).rsp = ⟨false, .done, f, s.rt.ok, s.rt.err, s.conf⟩ := rfl
@[simp] theorem State.respondRoundTrip_enc (s : State) (f : Bool) : (s.respondRoundTrip f).enc = s.enc := rfl
@[simp] theorem State.respondRoundTrip_val (s : State) (f : Bool) : (s.respondRoundTrip f).val = s.val := rfl
@[simp] theorem State.respondRoundTrip_bus (s : State) (f : Bool) : (s.respondRoundTrip f).bus = s.bus := rfl
@[simp] theorem State.respondRoundTrip_port (s : State) (f : Bool) : (s.respondRoundTrip f).port = s.port := rfl
@[simp] theorem State.respondRoundTrip_script (s : State) (f : Bool) : (s.respondRoundTrip f).script = s.script := rfl
@[simp] theorem State.respondRoundTrip_drawn (s : State) (f : Bool) : (s.respondRoundTrip f).drawn = s.drawn := rfl
@[simp] theorem State.respondRoundTrip_delay (s : State) (f : Bool) : (s.respondRoundTrip f).delay = s.delay := rfl
@[simp] theorem State.respondRoundTrip_params (s : State) (f : Bool) : (s.respondRoundTrip f).params = s.params := rfl

/-! `present` -/
@[simp] theorem State.present_address (s : State) : (s.present).address = s.address := rfl
@[simp] theorem State.present_verified (s : State) : (s.present).verified = s.verified := rfl
@[simp] theorem State.present_switchEnabled (s : State) : (s.present).switchEnabled = s.switchEnabled := rfl
@[simp] theorem State.present_ledOn (s : State) : (s.present).ledOn = s.ledOn := rfl
@[simp] theorem State.present_pressed (s : State) : (s.present).pressed = s.pressed := rfl
@[simp] theorem State.present_op (s : State) : (s.present).op = s.op := rfl
@[simp] theorem State.present_key (s : State) : (s.present).key = s.key := rfl
@[simp] theorem State.present_act (s : State) : (s.present).act = s.act := rfl
@[simp] theorem State.present_led (s : State) : (s.present).led = s.led := rfl
@[simp] theorem State.present_abyte (s : State) : (s.present).abyte = s.abyte := rfl
@[simp] theorem State.present_conf (s : State) : (s.present).conf = s.conf := rfl
@[simp] theorem State.present_att (s : State) : (s.present).att = s.att := rfl
@[simp] theorem State.present_fsm (s : State) : (s.present).fsm = .idle := rfl
@[simp] theorem State.present_rt (s : State) : (s.present).rt = s.rt := rfl
@[simp] theorem State.present_rsp (s : State) : (s.present).rsp = { s.rsp with valid := true } := rfl
@[simp] theorem State.present_enc (s : State) : (s.present).enc = s.enc := rfl
@[simp] theorem State.present_val (s : State) : (s.present).val = s.val := rfl
@[simp] theorem State.present_bus (s : State) : (s.present).bus = s.bus := rfl
@[simp] theorem State.present_port (s : State) : (s.present).port = s.port := rfl
@[simp] theorem State.present_script (s : State) : (s.present).script = s.script := rfl
@[simp] theorem State.present_drawn (s : State) : (s.present).drawn = s.drawn := rfl
@[simp] theorem State.present_delay (s : State) : (s.present).delay = s.delay := rfl
@[simp] theorem State.present_params (s : State) : (s.present).params = s.params := rfl

/-! `accept` -/
@[simp] theorem State.accept_address (s : State) : (s.accept).address = s.address := rfl
@[simp] theorem State.accept_verified (s : State) : (s.accept).verified = s.verified := rfl
@[simp] theorem State.accept_switchEnabled (s : State) : (s.accept).switchEnabled = s.switchEnabled := rfl
@[simp] theorem State.accept_ledOn (s : State) : (s.accept).ledOn = s.ledOn := rfl
@[simp] theorem State.accept_pressed (s : State) : (s.accept).pressed = s.pressed := rfl
@[simp] theorem State.accept_op (s : State) : (s.accept).op = s.op := rfl
@[simp] theorem State.accept_key (s : State) : (s.accept).key = s.key := rfl
@[simp] theorem State.accept_act (s : State) : (s.accept).act = s.act := rfl
@[simp] theorem State.accept_led (s : State) : (s.accept).led = s.led := rfl
@[simp] theorem State.accept_abyte (s : State) : (s.accept).abyte = s.abyte := rfl
@[simp] theorem State.accept_conf (s : State) : (s.accept).conf = s.conf := rfl
@[simp] theorem State.accept_att (s : State) : (s.accept).att = s.att := rfl
@[simp] theorem State.accept_fsm (s : State) : (s.accept).fsm = s.fsm := rfl
@[simp] theorem State.accept_rt (s : State) : (s.accept).rt = s.rt := rfl
@[simp] theorem State.accept_rsp (s : State) : (s.accept).rsp = { s.rsp with valid := false } := rfl
@[simp] theorem State.accept_enc (s : State) : (s.accept).enc = s.enc := rfl
@[simp] theorem State.accept_val (s : State) : (s.accept).val = s.val := rfl
@[simp] theorem State.accept_bus (s : State) : (s.accept).bus = s.bus := rfl
@[simp] theorem State.accept_port (s : State) : (s.accept).port = s.port := rfl
@[simp] theorem State.accept_script (s : State) : (s.accept).script = s.script := rfl
@[simp] theorem State.accept_drawn (s : State) : (s.accept).drawn = s.drawn := rfl
@[simp] theorem State.accept_delay (s : State) : (s.accept).delay = s.delay := rfl
@[simp] theorem State.accept_params (s : State) : (s.accept).params = s.params := rfl

/-! `latch` -/
@[simp] theorem State.latch_address (s : State) (o : Op) (k : Byte) (a : ActionKind) (l : Bool) : (s.latch o k a l).address = s.address := rfl
@[simp] theorem State.latch_verified (s : State) (o : Op) (k : Byte) (a : ActionKind) (l : Bool) : (s.latch o k a l).verified = s.verified := rfl
@[simp] theorem State.latch_switchEnabled (s : State) (o : Op) (k : Byte) (a : ActionKind) (l : Bool) : (s.latch o k a l).switchEnabled = s.switchEnabled := rfl
@[simp] theorem State.latch_ledOn (s : State) (o : Op) (k : Byte) (a : ActionKind) (l : Bool) : (s.latch o k a l).ledOn = s.ledOn := rfl
@[simp] theorem State.latch_pressed (s : State) (o : Op) (k : Byte) (a : ActionKind) (l : Bool) : (s.latch o k a l).pressed = s.pressed := rfl
@[simp] theorem State.latch_op (s : State) (o : Op) (k : Byte) (a : ActionKind) (l : Bool) : (s.latch o k a l).op = o := rfl
@[simp] theorem State.latch_key (s : State) (o : Op) (k : Byte) (a : ActionKind) (l : Bool) : (s.latch o k a l).key = k := rfl
@[simp] theorem State.latch_act (s : State) (o : Op) (k : Byte) (a : ActionKind) (l : Bool) : (s.latch o k a l).act = a := rfl
@[simp] theorem State.latch_led (s : State) (o : Op) (k : Byte) (a : ActionKind) (l : Bool) : (s.latch o k a l).led = l := rfl
@[simp] theorem State.latch_abyte (s : State) (o : Op) (k : Byte) (a : ActionKind) (l : Bool) : (s.latch o k a l).abyte = s.abyte := rfl
@[simp] theorem State.latch_conf (s : State) (o : Op) (k : Byte) (a : ActionKind) (l : Bool) : (s.latch o k a l).conf = s.conf := rfl
@[simp] theorem State.latch_att (s : State) (o : Op) (k : Byte) (a : ActionKind) (l : Bool) : (s.latch o k a l).att = s.att := rfl
@[simp] theorem State.latch_fsm (s : State) (o : Op) (k : Byte) (a : ActionKind) (l : Bool) : (s.latch o k a l).fsm = s.fsm := rfl
@[simp] theorem State.latch_rt (s : State) (o : Op) (k : Byte) (a : ActionKind) (l : Bool) : (s.latch o k a l).rt = s.rt := rfl
@[simp] theorem State.latch_rsp (s : State) (o : Op) (k : Byte) (a : ActionKind) (l : Bool) : (s.latch o k a l).rsp = s.rsp := rfl
@[simp] theorem State.latch_enc (s : State) (o : Op) (k : Byte) (a : ActionKind) (l : Bool) : (s.latch o k a l).enc = s.enc := rfl
@[simp] theorem State.latch_val (s : State) (o : Op) (k : Byte) (a : ActionKind) (l : Bool) : (s.latch o k a l).val = s.val := rfl
@[simp] theorem State.latch_bus (s : State) (o : Op) (k : Byte) (a : ActionKind) (l : Bool) : (s.latch o k a l).bus = s.bus := rfl
@[simp] theorem State.latch_port (s : State) (o : Op) (k : Byte) (a : ActionKind) (l : Bool) : (s.latch o k a l).port = s.port := rfl
@[simp] theorem State.latch_script (s : State) (o : Op) (k : Byte) (a : ActionKind) (l : Bool) : (s.latch o k a l).script = s.script := rfl
@[simp] theorem State.latch_drawn (s : State) (o : Op) (k : Byte) (a : ActionKind) (l : Bool) : (s.latch o k a l).drawn = s.drawn := rfl
@[simp] theorem State.latch_delay (s : State) (o : Op) (k : Byte) (a : ActionKind) (l : Bool) : (s.latch o k a l).delay = s.delay := rfl
@[simp] theorem State.latch_params (s : State) (o : Op) (k : Byte) (a : ActionKind) (l : Bool) : (s.latch o k a l).params = s.params := rfl

/-! `startRT` -/
@[simp] theorem State.startRT_address (s : State) : (s.startRT).address = s.address := rfl
@[simp] theorem State.startRT_verified (s : State) : (s.startRT).verified = s.verified := rfl
@[simp] theorem State.startRT_switchEnabled (s : State) : (s.startRT).switchEnabled = s.switchEnabled := rfl
@[simp] theorem State.startRT_ledOn (s : State) : (s.startRT).ledOn = s.ledOn := rfl
@[simp] theorem State.startRT_pressed (s : State) : (s.startRT).pressed = s.pressed := rfl
@[simp] theorem State.startRT_op (s : State) : (s.startRT).op = s.op := rfl
@[simp] theorem State.startRT_key (s : State) : (s.startRT).key = s.key := rfl
@[simp] theorem State.startRT_act (s : State) : (s.startRT).act = s.act := rfl
@[simp] theorem State.startRT_led (s : State) : (s.startRT).led = s.led := rfl
@[simp] theorem State.startRT_abyte (s : State) : (s.startRT).abyte = encodeActionByte s.key s.act s.led := rfl
@[simp] theorem State.startRT_conf (s : State) : (s.startRT).conf = s.conf := rfl
@[simp] theorem State.startRT_att (s : State) : (s.startRT).att = s.att := rfl
@[simp] theorem State.startRT_fsm (s : State) : (s.startRT).fsm = .kaWk := rfl
@[simp] theorem State.startRT_rt (s : State) : (s.startRT).rt = s.rt := rfl
@[simp] theorem State.startRT_rsp (s : State) : (s.startRT).rsp = s.rsp := rfl
@[simp] theorem State.startRT_enc (s : State) : (s.startRT).enc = s.enc := rfl
@[simp] theorem State.startRT_val (s : State) : (s.startRT).val = s.val := rfl
@[simp] theorem State.startRT_bus (s : State) : (s.startRT).bus = s.bus := rfl
@[simp] theorem State.startRT_port (s : State) : (s.startRT).port = s.port := rfl
@[simp] theorem State.startRT_script (s : State) : (s.startRT).script = s.script := rfl
@[simp] theorem State.startRT_drawn (s : State) : (s.startRT).drawn = s.drawn := rfl
@[simp] theorem State.startRT_delay (s : State) : (s.startRT).delay = s.delay := rfl
@[simp] theorem State.startRT_params (s : State) : (s.startRT).params = s.params := rfl

/-! `abortRT` -/
@[simp] theorem State.abortRT_address (s : State) : (s.abortRT).address = s.address := rfl
@[simp] theorem State.abortRT_verified (s : State) : (s.abortRT).verified = s.verified := rfl
@[simp] theorem State.abortRT_switchEnabled (s : State) : (s.abortRT).switchEnabled = s.switchEnabled := rfl
@[simp] theorem State.abortRT_ledOn (s : State) : (s.abortRT).ledOn = s.ledOn := rfl
@[simp] theorem State.abortRT_pressed (s : State) : (s.abortRT).pressed = s.pressed := rfl
@[simp] theorem State.abortRT_op (s : State) : (s.abortRT).op = s.op := rfl
@[simp] theorem State.abortRT_key (s : State) : (s.abortRT).key = s.key := rfl
@[simp] theorem State.abortRT_act (s : State) : (s.abortRT).act = s.act := rfl
@[simp] theorem State.abortRT_led (s : State) : (s.abortRT).led = s.led := rfl
@[simp] theorem State.abortRT_abyte (s : State) : (s.abortRT).abyte = s.abyte := rfl
@[simp] theorem State.abortRT_conf (s : State) : (s.abortRT).conf = s.conf := rfl
@[simp] theorem State.abortRT_att (s : State) : (s.abortRT).att = s.att := rfl
@[simp] theorem State.abortRT_fsm (s : State) : (s.abortRT).fsm = .rtEnd := rfl
@[simp] theorem State.abortRT_rt (s : State) : (s.abortRT).rt = ⟨false, false, 0#3⟩ := rfl
@[simp] theorem State.abortRT_rsp (s : State) : (s.abortRT).rsp = s.rsp := rfl
@[simp] theorem State.abortRT_enc (s : State) : (s.abortRT).enc = s.enc := rfl
@[simp] theorem State.abortRT_val (s : State) : (s.abortRT).val = s.val := rfl
@[simp] theorem State.abortRT_bus (s : State) : (s.abortRT).bus = s.bus := rfl
@[simp] theorem State.abortRT_port (s : State) : (s.abortRT).port = s.port := rfl
@[simp] theorem State.abortRT_script (s : State) : (s.abortRT).script = s.script := rfl
@[simp] theorem State.abortRT_drawn (s : State) : (s.abortRT).drawn = s.drawn := rfl
@[simp] theorem State.abortRT_delay (s : State) : (s.abortRT).delay = s.delay := rfl
@[simp] theorem State.abortRT_params (s : State) : (s.abortRT).params = s.params := rfl

/-! `backoff` -/
@[simp] theorem State.backoff_address (s : State) (f : Fsm) (d : Nat) : (s.backoff f d).address = s.address := rfl
@[simp] theorem State.backoff_verified (s : State) (f : Fsm) (d : Nat) : (s.backoff f d).verified = s.verified := rfl
@[simp] theorem State.backoff_switchEnabled (s : State) (f : Fsm) (d : Nat) : (s.backoff f d).switchEnabled = s.switchEnabled := rfl
@[simp] theorem State.backoff_ledOn (s : State) (f : Fsm) (d : Nat) : (s.backoff f d).ledOn = s.ledOn := rfl
@[simp] theorem State.backoff_pressed (s : State) (f : Fsm) (d : Nat) : (s.backoff f d).pressed = s.pressed := rfl
@[simp] theorem State.backoff_op (s : State) (f : Fsm) (d : Nat) : (s.backoff f d).op = s.op := rfl
@[simp] theorem State.backoff_key (s : State) (f : Fsm) (d : Nat) : (s.backoff f d).key = s.key := rfl
@[simp] theorem State.backoff_act (s : State) (f : Fsm) (d : Nat) : (s.backoff f d).act = s.act := rfl
@[simp] theorem State.backoff_led (s : State) (f : Fsm) (d : Nat) : (s.backoff f d).led = s.led := rfl
@[simp] theorem State.backoff_abyte (s : State) (f : Fsm) (d : Nat) : (s.backoff f d).abyte = s.abyte := rfl
@[simp] theorem State.backoff_conf (s : State) (f : Fsm) (d : Nat) : (s.backoff f d).conf = s.conf := rfl
@[simp] theorem State.backoff_att (s : State) (f : Fsm) (d : Nat) : (s.backoff f d).att = s.att := rfl
@[simp] theorem State.backoff_fsm (s : State) (f : Fsm) (d : Nat) : (s.backoff f d).fsm = f := rfl
@[simp] theorem State.backoff_rt (s : State) (f : Fsm) (d : Nat) : (s.backoff f d).rt = s.rt := rfl
@[simp] theorem State.backoff_rsp (s : State) (f : Fsm) (d : Nat) : (s.backoff f d).rsp = s.rsp := rfl
@[simp] theorem State.backoff_enc (s : State) (f : Fsm) (d : Nat) : (s.backoff f d).enc = s.enc := rfl
@[simp] theorem State.backoff_val (s : State) (f : Fsm) (d : Nat) : (s.backoff f d).val = s.val := rfl
@[simp] theorem State.backoff_bus (s : State) (f : Fsm) (d : Nat) : (s.backoff f d).bus = s.bus := rfl
@[simp] theorem State.backoff_port (s : State) (f : Fsm) (d : Nat) : (s.backoff f d).port = s.port := rfl
@[simp] theorem State.backoff_script (s : State) (f : Fsm) (d : Nat) : (s.backoff f d).script = s.script := rfl
@[simp] theorem State.backoff_drawn (s : State) (f : Fsm) (d : Nat) : (s.backoff f d).drawn = s.drawn := rfl
@[simp] theorem State.backoff_delay (s : State) (f : Fsm) (d : Nat) : (s.backoff f d).delay = d := rfl
@[simp] theorem State.backoff_params (s : State) (f : Fsm) (d : Nat) : (s.backoff f d).params = s.params := rfl

/-! `unverify` -/
@[simp] theorem State.unverify_address (s : State) : (s.unverify).address = s.address := rfl
@[simp] theorem State.unverify_verified (s : State) : (s.unverify).verified = false := rfl
@[simp] theorem State.unverify_switchEnabled (s : State) : (s.unverify).switchEnabled = s.switchEnabled := rfl
@[simp] theorem State.unverify_ledOn (s : State) : (s.unverify).ledOn = s.ledOn := rfl
@[simp] theorem State.unverify_pressed (s : State) : (s.unverify).pressed = s.pressed := rfl
@[simp] theorem State.unverify_op (s : State) : (s.unverify).op = s.op := rfl
@[simp] theorem State.unverify_key (s : State) : (s.unverify).key = s.key := rfl
@[simp] theorem State.unverify_act (s : State) : (s.unverify).act = s.act := rfl
@[simp] theorem State.unverify_led (s : State) : (s.unverify).led = s.led := rfl
@[simp] theorem State.unverify_abyte (s : State) : (s.unverify).abyte = s.abyte := rfl
@[simp] theorem State.unverify_conf (s : State) : (s.unverify).conf = s.conf := rfl
@[simp] theorem State.unverify_att (s : State) : (s.unverify).att = s.att := rfl
@[simp] theorem State.unverify_fsm (s : State) : (s.unverify).fsm = .resp := rfl
@[simp] theorem State.unverify_rt (s : State) : (s.unverify).rt = s.rt := rfl
@[simp] theorem State.unverify_rsp (s : State) : (s.unverify).rsp = ⟨false, .done, false, false, 0#3, 0#8⟩ := rfl
@[simp] theorem State.unverify_enc (s : State) : (s.unverify).enc = s.enc := rfl
@[simp] theorem State.unverify_val (s : State) : (s.unverify).val = s.val := rfl
@[simp] theorem State.unverify_bus (s : State) : (s.unverify).bus = s.bus := rfl
@[simp] theorem State.unverify_port (s : State) : (s.unverify).port = s.port := rfl
@[simp] theorem State.unverify_script (s : State) : (s.unverify).script = s.script := rfl
@[simp] theorem State.unverify_drawn (s : State) : (s.unverify).drawn = s.drawn := rfl
@[simp] theorem State.unverify_delay (s : State) : (s.unverify).delay = s.delay := rfl
@[simp] theorem State.unverify_params (s : State) : (s.unverify).params = s.params := rfl

/-! `record` -/
@[simp] theorem State.record_address (s : State) (e : BusEvent) : (s.record e).address = s.address := rfl
@[simp] theorem State.record_verified (s : State) (e : BusEvent) : (s.record e).verified = s.verified := rfl
@[simp] theorem State.record_switchEnabled (s : State) (e : BusEvent) : (s.record e).switchEnabled = s.switchEnabled := rfl
@[simp] theorem State.record_ledOn (s : State) (e : BusEvent) : (s.record e).ledOn = s.ledOn := rfl
@[simp] theorem State.record_pressed (s : State) (e : BusEvent) : (s.record e).pressed = s.pressed := rfl
@[simp] theorem State.record_op (s : State) (e : BusEvent) : (s.record e).op = s.op := rfl
@[simp] theorem State.record_key (s : State) (e : BusEvent) : (s.record e).key = s.key := rfl
@[simp] theorem State.record_act (s : State) (e : BusEvent) : (s.record e).act = s.act := rfl
@[simp] theorem State.record_led (s : State) (e : BusEvent) : (s.record e).led = s.led := rfl
@[simp] theorem State.record_abyte (s : State) (e : BusEvent) : (s.record e).abyte = s.abyte := rfl
@[simp] theorem State.record_conf (s : State) (e : BusEvent) : (s.record e).conf = s.conf := rfl
@[simp] theorem State.record_att (s : State) (e : BusEvent) : (s.record e).att = s.att := rfl
@[simp] theorem State.record_fsm (s : State) (e : BusEvent) : (s.record e).fsm = s.fsm := rfl
@[simp] theorem State.record_rt (s : State) (e : BusEvent) : (s.record e).rt = s.rt := rfl
@[simp] theorem State.record_rsp (s : State) (e : BusEvent) : (s.record e).rsp = s.rsp := rfl
@[simp] theorem State.record_enc (s : State) (e : BusEvent) : (s.record e).enc = s.enc := rfl
@[simp] theorem State.record_val (s : State) (e : BusEvent) : (s.record e).val = s.val := rfl
@[simp] theorem State.record_bus (s : State) (e : BusEvent) : (s.record e).bus = s.bus ++ [e] := rfl
@[simp] theorem State.record_port (s : State) (e : BusEvent) : (s.record e).port = s.port := rfl
@[simp] theorem State.record_script (s : State) (e : BusEvent) : (s.record e).script = s.script := rfl
@[simp] theorem State.record_drawn (s : State) (e : BusEvent) : (s.record e).drawn = s.drawn := rfl
@[simp] theorem State.record_delay (s : State) (e : BusEvent) : (s.record e).delay = s.delay := rfl
@[simp] theorem State.record_params (s : State) (e : BusEvent) : (s.record e).params = s.params := rfl

/-! `hardReset` -/
@[simp] theorem State.hardReset_address (s : State) : (s.hardReset).address = s.params.busAddr := rfl
@[simp] theorem State.hardReset_verified (s : State) : (s.hardReset).verified = State.reset.verified := rfl
@[simp] theorem State.hardReset_switchEnabled (s : State) : (s.hardReset).switchEnabled = State.reset.switchEnabled := rfl
@[simp] theorem State.hardReset_ledOn (s : State) : (s.hardReset).ledOn = State.reset.ledOn := rfl
@[simp] theorem State.hardReset_pressed (s : State) : (s.hardReset).pressed = State.reset.pressed := rfl
@[simp] theorem State.hardReset_op (s : State) : (s.hardReset).op = State.reset.op := rfl
@[simp] theorem State.hardReset_key (s : State) : (s.hardReset).key = State.reset.key := rfl
@[simp] theorem State.hardReset_act (s : State) : (s.hardReset).act = State.reset.act := rfl
@[simp] theorem State.hardReset_led (s : State) : (s.hardReset).led = State.reset.led := rfl
@[simp] theorem State.hardReset_abyte (s : State) : (s.hardReset).abyte = State.reset.abyte := rfl
@[simp] theorem State.hardReset_conf (s : State) : (s.hardReset).conf = State.reset.conf := rfl
@[simp] theorem State.hardReset_att (s : State) : (s.hardReset).att = State.reset.att := rfl
@[simp] theorem State.hardReset_fsm (s : State) : (s.hardReset).fsm = State.reset.fsm := rfl
@[simp] theorem State.hardReset_rt (s : State) : (s.hardReset).rt = State.reset.rt := rfl
@[simp] theorem State.hardReset_rsp (s : State) : (s.hardReset).rsp = State.reset.rsp := rfl
@[simp] theorem State.hardReset_enc (s : State) : (s.hardReset).enc = s.enc := rfl
@[simp] theorem State.hardReset_val (s : State) : (s.hardReset).val = s.val := rfl
@[simp] theorem State.hardReset_bus (s : State) : (s.hardReset).bus = s.bus := rfl
@[simp] theorem State.hardReset_port (s : State) : (s.hardReset).port = s.port := rfl
@[simp] theorem State.hardReset_script (s : State) : (s.hardReset).script = s.script := rfl
@[simp] theorem State.hardReset_drawn (s : State) : (s.hardReset).drawn = s.drawn := rfl
@[simp] theorem State.hardReset_delay (s : State) : (s.hardReset).delay = State.reset.delay := rfl
@[simp] theorem State.hardReset_params (s : State) : (s.hardReset).params = s.params := rfl

/-! `advance` -/
@[simp] theorem State.advance_address (s : State) : (s.advance).address = s.address := by
  unfold State.advance; split <;> rfl
@[simp] theorem State.advance_verified (s : State) : (s.advance).verified = s.verified := by
  unfold State.advance; split <;> rfl
@[simp] theorem State.advance_switchEnabled (s : State) : (s.advance).switchEnabled = s.switchEnabled := by
  unfold State.advance; split <;> rfl
@[simp] theorem State.advance_ledOn (s : State) : (s.advance).ledOn = s.ledOn := by
  unfold State.advance; split <;> rfl
@[simp] theorem State.advance_pressed (s : State) : (s.advance).pressed = s.pressed := by
  unfold State.advance; split <;> rfl
@[simp] theorem State.advance_op (s : State) : (s.advance).op = s.op := by
  unfold State.advance; split <;> rfl
@[simp] theorem State.advance_key (s : State) : (s.advance).key = s.key := by
  unfold State.advance; split <;> rfl
@[simp] theorem State.advance_act (s : State) : (s.advance).act = s.act := by
  unfold State.advance; split <;> rfl
@[simp] theorem State.advance_led (s : State) : (s.advance).led = s.led := by
  unfold State.advance; split <;> rfl
@[simp] theorem State.advance_abyte (s : State) : (s.advance).abyte = s.abyte := by
  unfold State.advance; split <;> rfl
@[simp] theorem State.advance_conf (s : State) : (s.advance).conf = s.conf := by
  unfold State.advance; split <;> rfl
@[simp] theorem State.advance_att (s : State) : (s.advance).att = s.att := by
  unfold State.advance; split <;> rfl
@[simp] theorem State.advance_fsm (s : State) : (s.advance).fsm = s.fsm := by
  unfold State.advance; split <;> rfl
@[simp] theorem State.advance_rt (s : State) : (s.advance).rt = s.rt := by
  unfold State.advance; split <;> rfl
@[simp] theorem State.advance_rsp (s : State) : (s.advance).rsp = s.rsp := by
  unfold State.advance; split <;> rfl
@[simp] theorem State.advance_enc (s : State) : (s.advance).enc = s.enc := by
  unfold State.advance; split <;> rfl
@[simp] theorem State.advance_val (s : State) : (s.advance).val = s.val := by
  unfold State.advance; split <;> rfl
@[simp] theorem State.advance_bus (s : State) : (s.advance).bus = s.bus := by
  unfold State.advance; split <;> rfl
@[simp] theorem State.advance_delay (s : State) : (s.advance).delay = s.delay := by
  unfold State.advance; split <;> rfl
@[simp] theorem State.advance_params (s : State) : (s.advance).params = s.params := by
  unfold State.advance; split <;> rfl

theorem State.advance_cons (s : State) (i : Input) (rest : List Input) (h : s.script = i :: rest) :
    s.advance = { s with port := i, script := rest } := by
  unfold State.advance; rw [h]

theorem State.advance_nil (s : State) (h : s.script = []) :
    s.advance = { s with port := Config.freeInput s.drawn, drawn := s.drawn + 1 } := by
  unfold State.advance; rw [h]

end Sys2Proof.Machine
end

