-- ==== Sys2Proof/Laws/Ops.lean ====
section
/-! SUPPORT. For each shared operation, once, everything it can do; for the step, its inversion. -/

namespace Sys2Proof.Machine

/-! ## Commands -/

theorem State.onIdle_of_idle (s : State) (run : State → State) (h : s.fsm = .idle) :
    s.onIdle run = run s.accept := by
  simp [State.onIdle, h]

theorem State.onIdle_of_busy (s : State) (run : State → State) (h : s.fsm ≠ .idle) : s.onIdle run = s := by
  simp [State.onIdle, h]

theorem State.guarded_of_verified (s : State) (run : State → State) (h : s.verified = true) :
    s.guarded run = run s := by
  simp [State.guarded, h]

theorem State.guarded_of_unverified (s : State) (run : State → State) (h : s.verified = false) :
    s.guarded run = s.respondStatus .notVerified := by
  simp [State.guarded, h]

theorem State.failedAttempt_cases (s : State) (again giveUp : State → State) :
    (s.att.toNat + 1 < 10 ∧ s.failedAttempt again giveUp = again { s with att := s.att + 1#4 }) ∨
    (10 ≤ s.att.toNat + 1 ∧ s.failedAttempt again giveUp = giveUp { s with att := 10#4 }) := by
  unfold State.failedAttempt Config.maxAttempts
  split
  · exact .inl ⟨by assumption, rfl⟩
  · exact .inr ⟨by omega, rfl⟩

/-! ## The bus -/

theorem State.busWrite_of_done (s : State) (a : Addr) (d : Byte) (e : Bool) (b : Byte) (h : s.port = .done e b) :
    s.busWrite a d = (s.record (.write a d e)).afterWrite e := by
  simp [State.busWrite, h]

theorem State.busWrite_of_waiting (s : State) (a : Addr) (d : Byte) (h : ∀ e b, s.port ≠ .done e b) :
    s.busWrite a d = s := by
  unfold State.busWrite
  split
  · exact absurd ‹_› (h _ _)
  · rfl

theorem State.busRead_of_error (s : State) (a : Addr) (b : Byte) (h : s.port = .done true b) :
    s.busRead a = s.readAnswered a none := by
  simp [State.busRead, h]

theorem State.busRead_of_byte (s : State) (a : Addr) (b : Byte) (h : s.port = .done false b) :
    s.busRead a = s.readAnswered a (some b) := by
  simp [State.busRead, h]

theorem State.busRead_of_waiting (s : State) (a : Addr) (h : ∀ e b, s.port ≠ .done e b) : s.busRead a = s := by
  unfold State.busRead
  split
  · exact absurd ‹_› (h _ _)
  · exact absurd ‹_› (h _ _)
  · rfl

/-- The policy of each write-issuing state (R137, R138). -/
theorem State.afterWrite_cases (s : State) (e : Bool) :
    (s.fsm = .kaWk ∧ e = false ∧ s.afterWrite e = { s with fsm := .kaWa }) ∨
    (s.fsm = .kaWk ∧ e = true ∧ s.afterWrite e = s.backoff .kaKb s.params.backoffKeyWrite) ∨
    (s.fsm = .kaWa ∧ e = false ∧ s.afterWrite e = { s with fsm := .kaRc }) ∨
    (s.fsm = .kaWa ∧ e = true ∧ s.afterWrite e = s.abortRT) ∨
    (s.fsm ≠ .kaWk ∧ s.fsm ≠ .kaWa ∧ s.afterWrite e = s) := by
  unfold State.afterWrite
  split <;> cases e <;> simp_all

/-! ## The commit -/

theorem State.commit_next {s t : State} {sw ld : Bool} (h : s.commit sw ld = .next t) :
    ¬ (s.act = .press ∧ s.pressedAtCap = true) ∧
    t = { s with pressed := commitPressed s.pressed s.act s.key, switchEnabled := sw, ledOn := ld } := by
  unfold State.commit at h
  split at h
  · cases h
  · exact ⟨by assumption, by injection h with h; exact h.symm⟩

theorem State.commit_of_unbounded (s : State) (sw ld : Bool) (h : s.params.pressedCap = none) :
    s.commit sw ld = .next
      { s with pressed := commitPressed s.pressed s.act s.key, switchEnabled := sw, ledOn := ld } := by
  simp [State.commit, State.pressedAtCap, h]

/-! ## exec and step -/

/-- Every operation of the table has a next state in every state. -/
theorem exec_answers_next (i : Instr) (s : State) : ∃ t, exec i s = .next t := by
  cases i
  case rsp =>
    simp only [exec, execRsp]
    split <;> exact ⟨_, rfl⟩
  all_goals exact ⟨_, rfl⟩

/-- What a step can do: the action of the state, then the ports move on. -/
theorem step_next {s t : State} (h : step s = .next t) :
    ∃ u, s.runAction s.action = .next u ∧ t = u.advance := by
  unfold step advanceOutcome at h
  split at h
  · exact ⟨_, by assumption, by injection h with h; exact h.symm⟩
  · cases h
  · cases h

theorem step_of_action {s u : State} (h : s.runAction s.action = .next u) : step s = .next u.advance := by
  simp [step, advanceOutcome, h]

theorem State.runWord_of_decode {s : State} {w : PortWord} {i : Instr} (h : decode w = .ok i) :
    s.runWord w = exec i s := by
  simp [State.runWord, h]

end Sys2Proof.Machine
end

