-- ==== Sys2Proof/Laws/PerInstr.lean ====
section
/-! SUPPORT. For every operation: its encoding has the width and the fixed bits of its row in spec/opcode_table.json. -/

namespace Sys2Proof.Laws

/-- A row's width, and the lowest bit, the width and the value of its fixed field (width 0 where it fixes nothing). -/
structure Row where
  width : Nat
  low : Nat
  size : Nat
  value : Nat
deriving DecidableEq, Repr

/-- The row of spec/opcode_table.json. -/
def row (i : Instr) : Row :=
  match i with
  | .verify => ⟨16, 0, 16, 0x1000⟩
  | .keyaction _ _ _ => ⟨16, 11, 5, 4⟩
  | .press _ => ⟨16, 8, 8, 48⟩
  | .release _ => ⟨16, 8, 8, 64⟩
  | .releaseall => ⟨16, 0, 16, 20480⟩
  | .kbden => ⟨16, 0, 16, 24576⟩
  | .encode _ _ _ => ⟨11, 0, 0, 0⟩
  | .validate _ _ _ => ⟨24, 0, 0, 0⟩
  | .buswrite _ _ => ⟨16, 15, 1, 0⟩
  | .busread _ => ⟨8, 7, 1, 1⟩
  | .frame _ _ _ _ _ => ⟨16, 0, 0, 0⟩
  | .actionByteTest _ _ _ => ⟨8, 4, 2, 0⟩
  | .actionBytePress _ _ _ => ⟨8, 4, 2, 1⟩
  | .actionByteRelease _ _ _ => ⟨8, 4, 2, 2⟩
  | .actionByteReleaseAll _ _ _ => ⟨8, 4, 2, 3⟩
  | .confirm _ _ _ _ _ => ⟨8, 0, 0, 0⟩
  | .identity => ⟨8, 0, 8, 130⟩
  | .rsp _ _ _ _ _ => ⟨17, 0, 0, 0⟩

/-- The width and the value of a word on a line. -/
def lineBits (p : PortWord) : Nat × Nat :=
  match p with
  | .cmd w => (16, w.toNat)
  | .encIn w => (11, w.toNat)
  | .valIn w => (24, w.toNat)
  | .tportWrite w => (16, w.toNat)
  | .tportRead w => (8, w.toNat)
  | .frame w => (16, w.toNat)
  | .actionByte w => (8, w.toNat)
  | .confirm w => (8, w.toNat)
  | .identity w => (8, w.toNat)
  | .rsp w => (17, w.toNat)

namespace EncodedBits

/-- The encoding has the row's width and fixed bits. -/
def Statement (i : Instr) : Prop :=
  (lineBits (encode i)).1 = (row i).width ∧
  (lineBits (encode i)).2 / 2 ^ (row i).low % 2 ^ (row i).size = (row i).value

theorem verify : Statement .verify := ⟨rfl, by decide⟩

theorem keyaction (key : Byte) (action : ActionKind) (led : Bool) : Statement (.keyaction key action led) := by
  refine ⟨rfl, ?_⟩
  revert key; cases action <;> cases led <;> decide

theorem press (key : Byte) : Statement (.press key) := by
  refine ⟨rfl, ?_⟩
  revert key; decide

theorem release (key : Byte) : Statement (.release key) := by
  refine ⟨rfl, ?_⟩
  revert key; decide

theorem releaseall : Statement .releaseall := ⟨rfl, by decide⟩

theorem kbden : Statement .kbden := ⟨rfl, by decide⟩

theorem encode (key : Byte) (action : ActionKind) (led : Bool) : Statement (.encode key action led) :=
  ⟨rfl, by simp [row, Nat.mod_one]⟩

theorem validate (key actionByte confirm : Byte) : Statement (.validate key actionByte confirm) :=
  ⟨rfl, by simp [row, Nat.mod_one]⟩

theorem buswrite (addr : Addr) (data : Byte) : Statement (.buswrite addr data) := by
  refine ⟨rfl, ?_⟩
  have ha := addr.isLt
  have hd := data.isLt
  have h : (Machine.packTportWrite addr data).toNat < 32768 := by
    change ((0#1 ++ addr) ++ data : BitVec (1 + 7 + 8)).toNat < 32768
    rw [BitVec.toNat_append, BitVec.toNat_append, ← Nat.shiftLeft_add_eq_or_of_lt hd,
      ← Nat.shiftLeft_add_eq_or_of_lt ha]
    simp only [Nat.shiftLeft_eq, BitVec.toNat_ofNat]
    omega
  simp only [lineBits, row, Sys2Proof.encode]
  omega

theorem busread (addr : Addr) : Statement (.busread addr) := by
  refine ⟨rfl, ?_⟩
  revert addr; decide

theorem frame (key : Byte) (parity led : Bool) (action : ActionKind) (checksum : BitVec 4) :
    Statement (.frame key parity led action checksum) :=
  ⟨rfl, by simp [row, Nat.mod_one]⟩

theorem actionByteTest (parity led : Bool) (checksum : BitVec 4) : Statement (.actionByteTest parity led checksum) := by
  refine ⟨rfl, ?_⟩
  revert checksum; cases parity <;> cases led <;> decide

theorem actionBytePress (parity led : Bool) (checksum : BitVec 4) :
    Statement (.actionBytePress parity led checksum) := by
  refine ⟨rfl, ?_⟩
  revert checksum; cases parity <;> cases led <;> decide

theorem actionByteRelease (parity led : Bool) (checksum : BitVec 4) :
    Statement (.actionByteRelease parity led checksum) := by
  refine ⟨rfl, ?_⟩
  revert checksum; cases parity <;> cases led <;> decide

theorem actionByteReleaseAll (parity led : Bool) (checksum : BitVec 4) :
    Statement (.actionByteReleaseAll parity led checksum) := by
  refine ⟨rfl, ?_⟩
  revert checksum; cases parity <;> cases led <;> decide

theorem confirm (parity error switch led : Bool) (checksum : BitVec 4) :
    Statement (.confirm parity error switch led checksum) :=
  ⟨rfl, by simp [row, Nat.mod_one]⟩

theorem identity : Statement .identity := ⟨rfl, by decide⟩

theorem rsp (status : Status) (flag ok : Bool) (err : BitVec 3) (confirm : Byte) :
    Statement (.rsp status flag ok err confirm) :=
  ⟨rfl, by simp [row, Nat.mod_one]⟩

end EncodedBits

end Sys2Proof.Laws
end

