-- ==== Sys2Proof/Laws/Step.lean ====
section
/-! SUPPORT. The step, inverted once: every way a step reaches a next state, by the rows of 41_transport_engine.md section 5.
Claims about all steps are case analyses of `StepTo`. -/

namespace Sys2Proof.Machine

theorem decode_packTportWrite (a : Addr) (d : Byte) : decode (.tportWrite (packTportWrite a d)) = .ok (.buswrite a d) := by
  simp [decode]

theorem decode_packTportRead (a : Addr) : decode (.tportRead (packTportRead a)) = .ok (.busread a) := by
  simp [decode]

theorem decode_packRsp (st : Status) (f o : Bool) (e : BitVec 3) (c : Byte) :
    decode (.rsp (packRsp true st.code f o e c)) = .ok (.rsp st f o e c) := by
  simp [decode, decodeRsp]

/-- A command word decodes to a command. -/
theorem decode_cmd_cases {w : BitVec 16} {i : Instr} (h : decode (.cmd w) = .ok i) :
    i = .verify ∨ (∃ k a l, i = .keyaction k a l) ∨ (∃ k, i = .press k) ∨ (∃ k, i = .release k) ∨
      i = .releaseall ∨ i = .kbden := by
  simp only [decode, decodeCmd] at h
  split at h
  · rename_i j hj
    cases h
    split_ifs at hj <;> cases hj <;> simp
  · cases h

theorem State.action_of_engineActs (s : State) (h : s.port.engineActs = true) : s.action = s.engineAction := by
  unfold State.action
  revert h
  cases s.port <;> simp [Input.engineActs]

/-- The ways a step goes on, before the ports move on. -/
inductive StepTo (s : State) : State → Prop where
  | reset : s.port = .rst → StepTo s s.hardReset
  | encode (v : BitVec 11) (k : Byte) (a : ActionKind) (l : Bool) : s.port = .encIn v →
      StepTo s { s with enc := ⟨k, a, l, k, encodeActionByte k a l⟩ }
  | validate (v : BitVec 24) (k ab c : Byte) : s.port = .valIn v →
      StepTo s { s with val := ⟨k, ab, c, validateConfirmation k ab c⟩ }
  | idle : s.port.engineActs = true → s.fsm = .idle → StepTo s s
  | illegal : s.port.engineActs = true → s.fsm = .idle → StepTo s s.illegalCommand
  | verify : s.port.engineActs = true → s.fsm = .idle →
      StepTo s { s.accept with op := .verify, att := 0#4, fsm := .vRd }
  | notVerified : s.port.engineActs = true → s.fsm = .idle → s.verified = false →
      StepTo s (s.accept.respondStatus .notVerified)
  | single (op : Op) (k : Byte) (a : ActionKind) (l : Bool) : s.port.engineActs = true → s.fsm = .idle →
      s.verified = true → op.operandsFixed k a l = true → op.hasLoop = false →
      StepTo s (s.accept.latch op k a l).startRT
  | loop (op : Op) (k : Byte) (a : ActionKind) (l : Bool) : s.port.engineActs = true → s.fsm = .idle →
      s.verified = true → op.operandsFixed k a l = true →
      StepTo s ({ s.accept with att := 0#4 }.latch op k a l).startRT
  | read : s.port.engineActs = true → s.fsm = .vRd ∨ s.fsm = .kaRc → StepTo s (s.busRead s.address)
  | writeKey : s.port.engineActs = true → s.fsm = .kaWk → StepTo s (s.busWrite s.address s.key)
  | writeAction : s.port.engineActs = true → s.fsm = .kaWa → StepTo s (s.busWrite s.address s.abyte)
  | delay : s.port.engineActs = true → s.fsm.isBackoff = true → StepTo s s.delayStep
  | judge (u : State) : s.port.engineActs = true → s.fsm = .kaVal → s.validateStep = .next u → StepTo s u
  | decide (u : State) : s.port.engineActs = true → s.fsm = .rtEnd → s.roundTripEnd = .next u → StepTo s u
  | present : s.port.engineActs = true → s.fsm = .resp → StepTo s s.present

/-- A command that is run in `IDLE` goes one of the ways of `IDLE`. -/
theorem StepTo.of_command {s u : State} {i : Instr} (hp : s.port.engineActs = true) (hf : s.fsm = .idle)
    (hi : i = .verify ∨ (∃ k a l, i = .keyaction k a l) ∨ (∃ k, i = .press k) ∨ (∃ k, i = .release k) ∨
      i = .releaseall ∨ i = .kbden) (h : exec i s = .next u) : StepTo s u := by
  rcases hi with rfl | ⟨k, a, l, rfl⟩ | ⟨k, rfl⟩ | ⟨k, rfl⟩ | rfl | rfl
  · simp only [exec, execVerify, State.onIdle_of_idle _ _ hf] at h
    cases h
    exact .verify hp hf
  all_goals
    simp only [exec, execKeyaction, execPress, execRelease, execReleaseall, execKbden,
      State.onIdle_of_idle _ _ hf] at h
    cases h
    cases hv : s.verified
    · rw [State.guarded_of_unverified _ _ (by simpa using hv)]
      exact .notVerified hp hf hv
    · rw [State.guarded_of_verified _ _ (by simpa using hv)]
      first
        | exact .single .keyaction _ _ _ hp hf hv rfl rfl
        | exact .single .press _ _ _ hp hf hv rfl rfl
        | exact .single .release _ _ _ hp hf hv rfl rfl
        | exact .loop .releaseall _ _ _ hp hf hv rfl
        | exact .loop .kbden _ _ _ hp hf hv rfl

/-- Every step that has a next state is one of these. -/
theorem step_cases {s t : State} (h : step s = .next t) : ∃ u, StepTo s u ∧ t = u.advance := by
  obtain ⟨u, hu, rfl⟩ := step_next h
  refine ⟨u, ?_, rfl⟩
  by_cases hp : s.port.engineActs = true
  · rw [State.action_of_engineActs s hp] at hu
    cases hf : s.fsm <;>
      simp only [State.engineAction, hf, State.runAction, State.runWord, decode_packTportWrite,
        decode_packTportRead, decode_packRsp] at hu
    case idle =>
      cases hq : s.port <;> simp only [hq] at hu
      case cmd w =>
        split at hu
        · exact .of_command hp hf (decode_cmd_cases (by assumption)) hu
        · cases hu
          exact .illegal hp hf
      all_goals
        cases hu
        exact .idle hp hf
    case vRd => cases hu; exact .read hp (.inl hf)
    case kaRc => cases hu; exact .read hp (.inr hf)
    case kaWk => cases hu; exact .writeKey hp hf
    case kaWa => cases hu; exact .writeAction hp hf
    case kaVal => exact .judge u hp hf hu
    case rtEnd => exact .decide u hp hf hu
    case resp =>
      simp only [exec, execRsp, hf, if_true] at hu
      cases hu
      exact .present hp hf
    all_goals
      cases hu
      exact .delay hp (by rw [hf]; rfl)
  · cases hq : s.port <;> simp only [hq, Input.engineActs, not_true_eq_false] at hp
    · have ha : s.action = .reset := by simp only [State.action, hq]
      rw [ha] at hu
      cases hu
      exact .reset hq
    · have ha : s.action = .word (.encIn ‹BitVec 11›) := by simp only [State.action, hq]
      rw [ha] at hu
      cases hu
      exact .encode _ _ _ _ hq
    · have ha : s.action = .word (.valIn ‹BitVec 24›) := by simp only [State.action, hq]
      rw [ha] at hu
      cases hu
      exact .validate _ _ _ _ hq

/-! ## Runs -/

theorem run_zero (s : State) : run 0 s = .next s := rfl

/-- A run goes on from the next state of its first step. -/
theorem run_succ {s t : State} (k : Nat) (h : step s = .next t) : run (k + 1) s = run k t := by
  simp only [run, Host.Core.run]
  rw [show core.step s = .next t from h]

/-- Two runs, one after the other. -/
theorem run_add {s t : State} (j k : Nat) (h : run j s = .next t) : run (j + k) s = run k t := by
  induction j generalizing s with
  | zero =>
    cases h
    rw [Nat.zero_add]
  | succ j ih =>
    cases hs : step s with
    | next u =>
      rw [run_succ j hs] at h
      rw [Nat.succ_add, run_succ (j + k) hs]
      exact ih h
    | fault r =>
      simp only [run, Host.Core.run] at h
      rw [show core.step s = .fault r from hs] at h
      cases h
    | refused r =>
      simp only [run, Host.Core.run] at h
      rw [show core.step s = .refused r from hs] at h
      cases h

/-- Fixed inputs move on to the ports one a step. -/
theorem State.advance_withInputs (s : State) (i j : Input) (rest : List Input) :
    (s.withInputs (i :: j :: rest)).advance = s.withInputs (j :: rest) := rfl

end Sys2Proof.Machine
end

