-- ==== Sys2Proof/Tests/Slice0.lean ====
section
/-! SUPPORT. The model's own tests. Expected values are those of 95_test_vectors.md and of the encoding tables of
30_encoding.md; a `test_witness_` theorem shows a state that meets the hypotheses of one statement. -/

namespace Sys2Proof.Tests

open Sys2Proof Sys2Proof.Machine

/-- A state after reset with concrete parameters (address 0x21, backoffs of one step), a quiet port to come. -/
def base : State :=
  { State.reset with address := 0x21#7, script := [.quiet], params := ⟨0x21#7, 1, 1, 1, none, .validated⟩ }

/-- `base`, armed. -/
def armed : State := { base with verified := true }

/-- `base` with this store capacity. -/
def capped (cap : Nat) : State := { armed with params := ⟨0x21#7, 1, 1, 1, some cap, .validated⟩ }

/-- In this sequencer state with this input. -/
def at' (s : State) (fsm : Fsm) (port : Input) : State := { s with fsm := fsm, port := port }

/-- PRESS 4 in its round trip (95_test_vectors.md section 2.1: the frame 0x04, 0x53). -/
def pressing (fsm : Fsm) (port : Input) : State :=
  at' { armed with op := .press, key := 4#8, act := .press, led := true, abyte := 0x53#8 } fsm port

/-- The next state, if there is one. -/
def got (o : Host.Outcome State Fault Refusal) : Option State :=
  match o with
  | .next s => some s
  | _ => none

/-! ## Well-formedness: an ill-formed term for each check -/

theorem test_wf_frame : WellFormed (.frame 4#8 false true .press 3#4) = true := by decide
theorem test_wf_frame_parity : WellFormed (.frame 4#8 true true .press 3#4) = false := by decide
theorem test_wf_frame_checksum : WellFormed (.frame 4#8 false true .press 5#4) = false := by decide
theorem test_wf_action_byte : WellFormed (.actionByteTest true false 1#4) = true := by decide
theorem test_wf_action_byte_even_checksum : WellFormed (.actionByteTest true false 2#4) = false := by decide
theorem test_wf_action_byte_small_checksum : WellFormed (.actionByteReleaseAll true true 3#4) = false := by decide
theorem test_wf_action_byte_large_checksum : WellFormed (.actionByteRelease true false 11#4) = false := by decide
theorem test_wf_action_byte_press_checksum : WellFormed (.actionBytePress false false 11#4) = false := by decide
theorem test_wf_response : WellFormed (.rsp .done false true 0#3 0xB3#8) = true := by decide
theorem test_wf_response_flag_of_failure : WellFormed (.rsp .notVerified true false 0#3 0#8) = false := by decide
theorem test_wf_response_ok_with_error : WellFormed (.rsp .done false true 2#3 0x33#8) = false := by decide
theorem test_wf_response_byte_without_round_trip : WellFormed (.rsp .done false false 0#3 0x33#8) = false := by decide

/-! ## Decoding: a word of every row, written out from its encoding -/

theorem test_decode_verify : decode (.cmd 0b0001000000000000#16) = .ok .verify := by decide
theorem test_decode_keyaction : decode (.cmd 0b0010010100000100#16) = .ok (.keyaction 4#8 .press true) := by decide
theorem test_decode_press : decode (.cmd 0b0011000000000100#16) = .ok (.press 4#8) := by decide
theorem test_decode_release : decode (.cmd 0b0100000000000100#16) = .ok (.release 4#8) := by decide
theorem test_decode_releaseall : decode (.cmd 0b0101000000000000#16) = .ok .releaseall := by decide
theorem test_decode_kbden : decode (.cmd 0b0110000000000000#16) = .ok .kbden := by decide
theorem test_decode_encode : decode (.encIn 0b10111111110#11) = .ok (.encode 0xFE#8 .press true) := by decide
theorem test_decode_validate :
    decode (.valIn 0b000001000101001110110011#24) = .ok (.validate 4#8 0x53#8 0xB3#8) := by decide
theorem test_decode_buswrite : decode (.tportWrite 0b0010000101010011#16) = .ok (.buswrite 0x21#7 0x53#8) := by decide
theorem test_decode_busread : decode (.tportRead 0b10100001#8) = .ok (.busread 0x21#7) := by decide
theorem test_decode_frame : decode (.frame 0b0000010001010011#16) = .ok (.frame 4#8 false true .press 3#4) := by decide
theorem test_decode_action_byte_test : decode (.actionByte 0b10000001#8) = .ok (.actionByteTest true false 1#4) := by
  decide
theorem test_decode_action_byte_press : decode (.actionByte 0b11010011#8) = .ok (.actionBytePress true true 3#4) := by
  decide
theorem test_decode_action_byte_release :
    decode (.actionByte 0b01100011#8) = .ok (.actionByteRelease false true 3#4) := by decide
theorem test_decode_action_byte_release_all :
    decode (.actionByte 0b01110011#8) = .ok (.actionByteReleaseAll false true 3#4) := by decide
theorem test_decode_confirm : decode (.confirm 0b10100001#8) = .ok (.confirm true false true false 1#4) := by decide
theorem test_decode_identity : decode (.identity 0b10000010#8) = .ok .identity := by decide
theorem test_decode_rsp :
    decode (.rsp 0b10000101010110011#17) = .ok (.rsp .done false true 2#3 0xB3#8) := by decide

theorem test_refuse_bit_eleven : decode (.cmd 0x2C04#16) = .error (.illegalCmd 0x2C04#16) := by decide
theorem test_refuse_press_with_action : decode (.cmd 0x3104#16) = .error (.illegalCmd 0x3104#16) := by decide
theorem test_refuse_verify_with_key : decode (.cmd 0x1001#16) = .error (.illegalCmd 0x1001#16) := by decide
theorem test_refuse_opcode_seven : decode (.cmd 0x7000#16) = .error (.illegalCmd 0x7000#16) := by decide
theorem test_refuse_read_as_write : decode (.tportWrite 0x8000#16) = .error (.notAWrite 0x8000#16) := by decide
theorem test_refuse_write_as_read : decode (.tportRead 0x21#8) = .error (.notARead 0x21#8) := by decide
theorem test_refuse_other_identity : decode (.identity 0x83#8) = .error (.notIdentity 0x83#8) := by decide
theorem test_refuse_no_response : decode (.rsp 0x0FFFF#17) = .error (.noResponse 0x0FFFF#17) := by decide
theorem test_refuse_status_four : decode (.rsp 0x18000#17) = .error (.reservedStatus 0x18000#17) := by decide

theorem test_table_command : decodeTableWord 16 0x2504 = some (.keyaction 4#8 .press true) := by decide
theorem test_table_encode : decodeTableWord 16 0x5FE = some (.encode 0xFE#8 .press true) := by decide
theorem test_table_busread : decodeTableWord 8 0xA1 = some (.busread 0x21#7) := by decide
theorem test_table_validate : decodeTableWord 24 0x0453B3 = some (.validate 4#8 0x53#8 0xB3#8) := by decide
theorem test_table_rsp : decodeTableWord 24 0x10AB3 = some (.rsp .done false true 2#3 0xB3#8) := by decide

/-! ## One step of each operation -/

/-- VERIFY, in either mode (R135). -/
theorem test_verify : (got (step (at' base .idle (.cmd 0x1000#16)))).map (fun t => (t.fsm, t.op, t.tReq)) =
    some (.vRd, .verify, true) := by decide

/-- KEYACTION 0x41, Press, On: the action byte 0xD5 (95 section 2.1). -/
theorem test_keyaction : (got (step (at' armed .idle (.cmd 0x2541#16)))).map (fun t => (t.fsm, t.key, t.abyte)) =
    some (.kaWk, 0x41#8, 0xD5#8) := by decide

/-- The guard (95, P3 step 1). -/
theorem test_press_unverified :
    (got (step (at' base .idle (.cmd 0x3005#16)))).map (fun t => (t.fsm, t.rsp.status, t.bus)) =
      some (.resp, .notVerified, []) := by decide

/-- PRESS 4 (95 section 2.1). -/
theorem test_press : (got (step (at' armed .idle (.cmd 0x3004#16)))).map (fun t => (t.act, t.led, t.abyte)) =
    some (.press, true, 0x53#8) := by decide

/-- RELEASE 4: the action byte 0x63 (42_derived_ops.md R161). -/
theorem test_release : (got (step (at' armed .idle (.cmd 0x4004#16)))).map (fun t => (t.act, t.led, t.abyte)) =
    some (.release, true, 0x63#8) := by decide

/-- RELEASEALL: the frame 0x00, 0x73 (R162). -/
theorem test_releaseall :
    (got (step (at' { armed with att := 7#4 } .idle (.cmd 0x5000#16)))).map (fun t => (t.key, t.abyte, t.att)) =
      some (0#8, 0x73#8, 0#4) := by decide

/-- KBDEN: the frame 0x00, 0x81 (R164). -/
theorem test_kbden : (got (step (at' armed .idle (.cmd 0x6000#16)))).map (fun t => (t.key, t.abyte, t.op)) =
    some (0#8, 0x81#8, .kbden) := by decide

/-- ENCODE 0xFF, ReleaseAll, On = 0x7B, the largest checksum (95 section 2.1). -/
theorem test_encode : (got (exec (.encode 0xFF#8 .releaseAll true) base)).map (·.enc.actionByte) = some 0x7B#8 := by
  decide

/-- VALIDATE 0x04, 0x53, 0xC3: error flag and parity (95 section 2.3). -/
theorem test_validate :
    (got (exec (.validate 4#8 0x53#8 0xC3#8) base)).map (·.val.verdict) = some ⟨false, 0b110#3, false, false⟩ := by decide

/-- VALIDATE 0xFF, 0xF0, 0x8C: expected 12, the maximum (95 section 2.3). -/
theorem test_validate_maximum :
    (got (exec (.validate 0xFF#8 0xF0#8 0x8C#8) base)).map (·.val.verdict.ok) = some true := by decide

/-- BUSWRITE of the key byte answered `err`: the unbounded loop's backoff (R137). -/
theorem test_buswrite_error :
    (got (exec (.buswrite 0x21#7 4#8) (pressing .kaWk (.done true 0#8)))).map (fun t => (t.fsm, t.bus)) =
      some (.kaKb, [.write 0x21#7 4#8 true]) := by decide

/-- BUSWRITE of the action byte answered `err`: the round trip is aborted (R138). -/
theorem test_buswrite_abort :
    (got (exec (.buswrite 0x21#7 0x53#8) (pressing .kaWa (.done true 0#8)))).map (fun t => (t.fsm, t.rt.completed)) =
      some (.rtEnd, false) := by decide

/-- BUSREAD of the confirmation (R138). -/
theorem test_busread :
    (got (exec (.busread 0x21#7) (pressing .kaRc (.done false 0xB3#8)))).map (fun t => (t.fsm, t.conf)) =
      some (.kaVal, 0xB3#8) := by decide

/-- BUSREAD with the tenth transport error of the identity read (R136). -/
theorem test_busread_gives_up :
    (got (exec (.busread 0x21#7) (at' { armed with op := .verify, att := 9#4 } .vRd (.done true 0#8)))).map
      (fun t => (t.fsm, t.verified, t.att)) = some (.resp, false, 10#4) := by decide

/-- FRAME: the key id byte first (R71). -/
theorem test_frame :
    (got (exec (.frame 4#8 false true .press 3#4) (pressing .kaWk (.done false 0#8)))).map (fun t => (t.fsm, t.bus)) =
      some (.kaWa, [.write 0x21#7 4#8 false]) := by decide

/-- ACTION_BYTE.Test: the byte 0x81 is written. -/
theorem test_action_byte_test :
    (got (exec (.actionByteTest true false 1#4) (pressing .kaWa (.done false 0#8)))).map (·.bus) =
      some [.write 0x21#7 0x81#8 false] := by decide

/-- ACTION_BYTE.Press: 0x53. -/
theorem test_action_byte_press :
    (got (exec (.actionBytePress false true 3#4) (pressing .kaWa (.done false 0#8)))).map (·.bus) =
      some [.write 0x21#7 0x53#8 false] := by decide

/-- ACTION_BYTE.Release: 0x63. -/
theorem test_action_byte_release :
    (got (exec (.actionByteRelease false true 3#4) (pressing .kaWa (.done false 0#8)))).map (·.bus) =
      some [.write 0x21#7 0x63#8 false] := by decide

/-- ACTION_BYTE.ReleaseAll: 0x73. -/
theorem test_action_byte_release_all :
    (got (exec (.actionByteReleaseAll false true 3#4) (pressing .kaWa (.done false 0#8)))).map (·.bus) =
      some [.write 0x21#7 0x73#8 false] := by decide

/-- CONFIRM: the byte 0xA1 answers the read (R77). -/
theorem test_confirm :
    (got (exec (.confirm true false true false 1#4) (pressing .kaRc .quiet))).map (fun t => (t.conf, t.fsm)) =
      some (0xA1#8, .kaVal) := by decide

/-- IDENTITY: arms, tentatively, and starts the probe 0x00, 0x81 (R136). -/
theorem test_identity :
    (got (exec .identity (at' { base with op := .verify, att := 3#4 } .vRd .quiet))).map
      (fun t => (t.verified, t.fsm, t.att, t.abyte)) = some (true, .kaWk, 0#4, 0x81#8) := by decide

/-- RSP: presented in `RESP` (R141). -/
theorem test_rsp :
    (got (exec (.rsp .done false true 0#3 0xB3#8) (pressing .resp .quiet))).map (fun t => (t.fsm, t.rsp)) =
      some (.idle, ⟨true, .done, false, true, 0#3, 0xB3#8⟩) := by decide

/-! ## The steps without a word -/

/-- The commit of PRESS 4 with 0xB3 (R130's worked example). -/
theorem test_commit : (got (step { pressing .kaVal .quiet with conf := 0xB3#8, pressed := [7#8] })).map
    (fun t => (t.pressed, t.switchEnabled, t.ledOn)) = some ([7#8, 4#8], true, true) := by decide

/-- No commit with 0x33 (R130's worked example). -/
theorem test_no_commit : (got (step { pressing .kaVal .quiet with conf := 0x33#8 })).map
    (fun t => (t.pressed, t.rt)) = some ([], ⟨true, false, 0b010#3⟩) := by decide

/-- RELEASE takes the oldest of `[4, 7, 4]` (R161's worked example). -/
theorem test_remove_first : removeFirst [4#8, 7#8, 4#8] 4#8 = [7#8, 4#8] := by decide

/-- The tenth aborted attempt of KBDEN answers 0 whatever the switch (R164). -/
theorem test_kbden_gives_up :
    (got (step { at' armed .rtEnd .quiet with op := .kbden, att := 9#4, switchEnabled := true })).map
      (fun t => (t.fsm, t.att, t.rsp.flag, t.verified)) = some (.resp, 10#4, false, true) := by decide

/-- Reset drops a command (70_reset_and_hazards.md R200, R201). -/
theorem test_reset : (got (step (pressing .kaWa .rst))).map (fun t => (t.fsm, t.verified, t.abyte, t.address)) =
    some (.idle, false, 0#8, 0x21#7) := by decide

/-- A placed word is the one the next step runs. -/
theorem test_place_command :
    (got (step (base.withFetchWord 16 0x7000))).map (fun t => t.bus) = some [.write 0x70#7 0#8 false] := by decide

theorem test_place_verify : (got (step (base.withFetchWord 16 0x1000))).map (·.fsm) = some .vRd := by decide

theorem test_place_identity : (got (step (base.withFetchWord 8 0x82))).map (·.verified) = some true := by decide

/-! ## Witnesses: states that meet the statements' hypotheses -/

theorem test_witness_SingleBitErrorsAreDetected :
    (validateConfirmation 4#8 (encodeActionByte 4#8 .press true) 0xB3#8).ok = true ∧
      (4 : Nat) ∈ [4, 5, 7] ∧ (7 : Nat) ∈ [4, 5, 7] ∧ (4 : Nat) ≠ 7 := by decide

theorem test_witness_IllegalWordsAreAnsweredIllegalCmd :
    let s := at' base .idle (.cmd 0x2C04#16)
    s.fsm = .idle ∧ s.port = .cmd 0x2C04#16 ∧ decode (.cmd 0x2C04#16) = .error (.illegalCmd 0x2C04#16) := by decide

theorem test_witness_EncodeOfDecodeIsTheWord : decode (.rsp 0x108B3#17) = .ok (.rsp .done false true 0#3 0xB3#8) := by
  decide

theorem test_witness_VerifyStartsTheIdentityRead : base.fsm = .idle := by decide

theorem test_witness_ArmedCommandsStartTheirRoundTrip : armed.fsm = .idle ∧ armed.verified = true := by decide

theorem test_witness_GuardAnswersNotVerified : base.fsm = .idle ∧ base.verified = false ∧
    ((∃ k a l, Instr.press 5#8 = .keyaction k a l) ∨ (∃ k, Instr.press 5#8 = .press k) ∨
      (∃ k, Instr.press 5#8 = .release k) ∨ Instr.press 5#8 = .releaseall ∨ Instr.press 5#8 = .kbden) :=
  ⟨by decide, by decide, .inr (.inl ⟨_, rfl⟩)⟩

theorem test_witness_CommandsAreNotSeenWhileBusy : (pressing .kaWk .quiet).fsm ≠ .idle := by decide

theorem test_witness_IdleTransitions_nothing :
    base.fsm = .idle ∧ base.port = .quiet ∧ (at' base .idle (.done true 3#8)).port = .done true 3#8 := by decide

theorem test_witness_IdleTransitions_illegal : decode (.cmd 0#16) = .error (.illegalCmd 0#16) := by decide

theorem test_witness_IdleTransitions_unarmed :
    let s := at' base .idle (.cmd 0x6000#16)
    s.fsm = .idle ∧ s.port = .cmd 0x6000#16 ∧ s.verified = false ∧ decode (.cmd 0x6000#16) = .ok .kbden ∧
      Instr.kbden ≠ .verify := by decide

theorem test_witness_IdleTransitions_armed :
    let s := at' armed .idle (.cmd 0x27FF#16)
    s.fsm = .idle ∧ s.verified = true ∧ decode (.cmd 0x27FF#16) = .ok (.keyaction 0xFF#8 .releaseAll true) ∧
      decode (.cmd 0x30FF#16) = .ok (.press 0xFF#8) ∧ decode (.cmd 0x4000#16) = .ok (.release 0#8) ∧
      decode (.cmd 0x5000#16) = .ok .releaseall := by decide

theorem test_witness_BusreadFollowsTheIssuingState :
    (pressing .kaRc (.done false 1#8)).port = .done false 1#8 ∧
      (pressing .kaRc (.done true 1#8)).port = .done true 1#8 := by decide

theorem test_witness_BusreadFollowsTheIssuingState_waiting :
    ∀ e b, (pressing .kaRc .quiet).port ≠ .done e b := fun _ _ h => nomatch h

theorem test_witness_FrameIsTwoWritesInOrder :
    (pressing .kaWk (.done false 0#8)).fsm = .kaWk ∧ (pressing .kaWk (.done false 0#8)).port = .done false 0#8 := by
  decide

theorem test_witness_ResponseIsPresentedInResp :
    (pressing .resp .quiet).fsm = .resp ∧ (pressing .kaWk .quiet).fsm ≠ .resp := by decide

theorem test_witness_StepRunsTheDecodedWord :
    (pressing .kaWa .quiet).action = .word (.tportWrite 0x2153#16) ∧
      decode (.tportWrite 0x2153#16) = .ok (.buswrite 0x21#7 0x53#8) := by decide

theorem test_witness_EachStateRunsItsOperation :
    (at' base .idle (.encIn 5#11)).port = .encIn 5#11 ∧ (at' base .kaWk (.valIn 5#24)).port = .valIn 5#24 ∧
      (pressing .kaWk .quiet).port.engineActs = true ∧
      (at' base .vRd (.done false 0x82#8)).port = .done false 0x82#8 := by decide

theorem test_witness_IdentityReadTransitions :
    (at' base .vRd (.done false 0x82#8)).port.engineActs = true ∧ (at' base .vRd (.done false 0x82#8)).fsm = .vRd ∧
      (at' { base with att := 9#4 } .vRd (.done true 0#8)).port.engineActs = true ∧ (at' base .vBk .quiet).fsm = .vBk := by
  decide

theorem test_witness_RoundTripTransitions :
    (pressing .kaWk (.done false 0#8)).port.engineActs = true ∧ (pressing .kaKb .quiet).fsm = .kaKb ∧
      (pressing .kaWa (.done true 0#8)).fsm = .kaWa ∧ (pressing .kaRc (.done false 0xB3#8)).fsm = .kaRc := by decide

theorem test_witness_ValidationTransition_valid :
    let s := { pressing .kaVal .quiet with conf := 0xB3#8 }
    s.fsm = .kaVal ∧ s.port.engineActs = true ∧ (validateConfirmation s.key s.abyte s.conf).ok = true ∧
      ¬ (s.act = .press ∧ s.pressedAtCap = true) := by decide

theorem test_witness_ValidationTransition_invalid :
    let s := { pressing .kaVal .quiet with conf := 0x33#8 }
    s.fsm = .kaVal ∧ (validateConfirmation s.key s.abyte s.conf).ok = false := by decide

theorem test_witness_PressOnAFullStoreIsRefused :
    let s := { at' (capped 0) .kaVal .quiet with key := 4#8, act := .press, abyte := 0x53#8, conf := 0xB3#8 }
    s.fsm = .kaVal ∧ s.port.engineActs = true ∧ s.act = .press ∧
      (validateConfirmation s.key s.abyte s.conf).ok = true ∧ s.params.pressedCap = some 0 ∧ 0 ≤ s.pressed.length := by
  decide

theorem test_witness_PressOnAFullStoreIsRefused_room :
    let s := { at' (capped 1) .kaVal .quiet with key := 4#8, act := .press, abyte := 0x53#8, conf := 0xB3#8 }
    (validateConfirmation s.key s.abyte s.conf).ok = true ∧
      ∀ cap, s.params.pressedCap = some cap → s.pressed.length < cap := by
  refine ⟨by decide, fun cap h => ?_⟩
  cases h
  decide

theorem test_witness_RoundTripEndTransitions_single :
    let s := { pressing .rtEnd .quiet with rt := ⟨true, true, 0#3⟩ }
    s.port.engineActs = true ∧ s.fsm = .rtEnd ∧ s.op = .press ∧ s.rt.completed = true := by decide

theorem test_witness_RoundTripEndTransitions_loop :
    let s := { at' armed .rtEnd .quiet with op := .kbden, att := 8#4 }
    s.fsm = .rtEnd ∧ (s.op = .kbden ∧ false = s.switchEnabled) ∧ s.rt.completed = false ∧ s.att.toNat + 1 < 10 ∧
      { s with att := 9#4 }.att.toNat + 1 = 10 := by decide

theorem test_witness_RoundTripEndTransitions_verify :
    let s := { at' armed .rtEnd .quiet with op := .verify, att := 9#4, rt := ⟨true, false, 2#3⟩ }
    s.op = .verify ∧ ¬ (s.rt.completed = true ∧ (s.rt.ok = true ∨ s.params.probeSuccess = .completed)) ∧
      s.att.toNat + 1 = 10 ∧ (at' s .atBk .quiet).fsm = .atBk := by decide

theorem test_witness_ResponseReturnsToIdle :
    (pressing .resp .quiet).fsm = .resp ∧ (pressing .resp .quiet).port.engineActs = true := by decide

theorem test_witness_ResetTakesEveryElement : (pressing .kaWa .rst).port = .rst := by decide

/-- PRESS 4 before its first write meets the invariant. -/
theorem test_witness_StepKeepsTheInvariant :
    (pressing .kaWk (.done false 0#8)).Inv ∧ ∃ t, step (pressing .kaWk (.done false 0#8)) = .next t :=
  ⟨⟨by decide, by decide, by decide, by decide, by decide, by decide, by decide, by decide, by decide,
    fun cap h => nomatch h⟩, _, rfl⟩

/-- So does a full store, whose step is the refusal. -/
theorem test_witness_NoStepFaults :
    State.Inv { at' (capped 0) .kaVal .quiet with
      op := .press, key := 4#8, act := .press, led := true, abyte := 0x53#8, conf := 0xB3#8 } :=
  ⟨by decide, by decide, by decide, by decide, by decide, by decide, by decide, by decide, by decide,
    fun cap h => by cases h; decide⟩

theorem test_witness_OnlyTheCommitWritesTheSession :
    let s := { pressing .kaVal .quiet with conf := 0xB3#8 }
    (∃ t, step s = .next t) ∧ s.port ≠ .rst ∧ s.fsm = .kaVal ∧ s.port.engineActs = true ∧
      (validateConfirmation s.key s.abyte s.conf).ok = true ∧ s.act = .press := ⟨⟨_, rfl⟩, by decide⟩

theorem test_witness_OnlyTheCommitWritesTheSession_no_commit :
    let s := pressing .kaWk .quiet
    (∃ t, step s = .next t) ∧ s.port ≠ .rst ∧ s.fsm ≠ .kaVal := ⟨⟨_, rfl⟩, by decide⟩

theorem test_witness_OnlyVerifyChangesTheMode :
    let s := at' { armed with op := .verify } .vRd (.done false 0x83#8)
    (∃ t, step s = .next t ∧ t.verified ≠ s.verified) ∧ s.AddressHeld := ⟨⟨_, rfl, by decide⟩, by decide⟩

theorem test_witness_FailureResponsesLeaveTheSession :
    let s := pressing .rtEnd .quiet
    (∃ t, step s = .next t ∧ t.fsm = .resp ∧ t.rsp.status ≠ .done) ∧ s.port ≠ .rst :=
  ⟨⟨_, rfl, by decide, by decide⟩, by decide⟩

theorem test_witness_FailureResponsesLeaveTheSession_resp :
    let s := pressing .resp .quiet
    (∃ t, step s = .next t) ∧ s.port ≠ .rst ∧ s.fsm = .resp := ⟨⟨_, rfl⟩, by decide⟩

theorem test_witness_OneBusOperationPerStep :
    ∃ t, step (pressing .kaWa (.done true 0#8)) = .next t ∧ t.bus = [.write 0x21#7 0x53#8 true] := ⟨_, rfl, by decide⟩

theorem test_witness_BusyEngineDoesNotReadTheCommandPort : (pressing .kaWk .quiet).fsm ≠ .idle := by decide

theorem test_witness_UnarmedEngineTouchesNeitherBusNorSession :
    let s := at' base .idle (.cmd 0x1000#16)
    s.fsm = .idle ∧ s.verified = false ∧ s.port ≠ .rst ∧ ∃ t, step s = .next t ∧ t.tReq = true :=
  ⟨by decide, by decide, by decide, _, rfl, by decide⟩

theorem test_witness_RemoveFirstTakesTheOldest : (4#8 : Byte) ∈ [7#8, 4#8, 4#8] ∧ (5#8 : Byte) ∉ [7#8, 4#8] := by decide

theorem test_witness_PressThenReleaseKeepsTheCount : (4#8 : Byte) ∉ [7#8] ∧ (7#8 : Byte) ≠ 4#8 := by decide

theorem test_witness_CompletedRoundTripRun :
    let s := pressing .kaWk .quiet
    s.fsm = .kaWk ∧ s.delay = 0 ∧ (s.act = .press → s.pressedAtCap = false) := by decide

theorem test_witness_AbortedRoundTripRun : (pressing .kaWk .quiet).fsm = .kaWk ∧ (pressing .kaWk .quiet).delay = 0 := by
  decide

theorem test_witness_KeyactionRun :
    armed.fsm = .idle ∧ armed.verified = true ∧ armed.delay = 0 ∧
      (ActionKind.press = .press → armed.pressedAtCap = false) := by decide

/-- Nine aborted attempts, of both kinds and with key id byte write errors, as many as may come before a success. -/
def nineAborted : List Attempt :=
  ⟨1, .writeError⟩ :: ⟨0, .readError⟩ :: List.replicate 7 ⟨0, .writeError⟩

/-- Nine failed probes: an abort, then completed ones that are not valid (0x21 fails parity, R131's worked example). -/
def nineFailedProbes : List Attempt :=
  ⟨0, .readError⟩ :: List.replicate 8 ⟨1, .confirmed 0x21#8⟩

theorem test_witness_ReleaseallRun :
    armed.fsm = .idle ∧ armed.verified = true ∧ armed.delay = 0 ∧
      nineAborted.length < 10 ∧ (∀ a ∈ nineAborted, a.aborts = true) ∧ ([] : List Attempt).length < 10 := by decide

theorem test_witness_KbdenRun :
    armed.fsm = .idle ∧ armed.verified = true ∧ armed.delay = 0 ∧
      nineAborted.length < 10 ∧ (∀ a ∈ nineAborted, a.aborts = true) := by decide

theorem test_witness_TenAbortedAttemptsAnswerFalse :
    armed.fsm = .idle ∧ armed.verified = true ∧ armed.delay = 0 ∧
      (0x6000#16 = 0x5000#16 ∨ (0x6000#16 : BitVec 16) = 0x6000#16) ∧ nineAborted.length = 9 ∧
      ∀ a ∈ nineAborted ++ [⟨0, .readError⟩], a.aborts = true := by decide

theorem test_witness_FailedIdentityReadDisarms :
    armed.fsm = .idle ∧ armed.delay = 0 ∧ 9 < 10 ∧ (0x83#8 : Byte) ≠ 0x82#8 := by decide

/-- Nine failed probes, then the valid 0xA1 (R131's worked example). -/
theorem test_witness_SuccessfulVerifyArms :
    base.fsm = .idle ∧ base.delay = 0 ∧ 9 < 10 ∧ nineFailedProbes.length < 10 ∧
      (∀ a ∈ nineFailedProbes, a.failsProbe base.params.probeSuccess = true) ∧
      probeAccepts base.params.probeSuccess 0xA1#8 = true := by decide

/-- Under `completed` an aborted probe fails and an invalid confirmation is accepted. -/
theorem test_witness_SuccessfulVerifyArms_completed :
    let s := { base with params := { base.params with probeSuccess := .completed } }
    s.fsm = .idle ∧ s.delay = 0 ∧ (∀ a ∈ nineAborted, a.failsProbe s.params.probeSuccess = true) ∧
      probeAccepts s.params.probeSuccess 0x21#8 = true := by decide

theorem test_witness_TenFailedProbesDisarm :
    armed.fsm = .idle ∧ armed.delay = 0 ∧ 0 < 10 ∧ nineFailedProbes.length = 9 ∧
      ∀ a ∈ nineFailedProbes ++ [⟨0, .confirmed 0x21#8⟩], a.failsProbe armed.params.probeSuccess = true := by decide

theorem test_witness_TheTwoWaitsNeverEndByThemselves :
    (pressing .kaWk .quiet).fsm = .kaWk ∧ (pressing .kaWk .quiet).delay = 0 ∧ (pressing .kaRc .quiet).tReq = true := by
  decide

theorem test_witness_BackoffOnlyTakesTime :
    let s := { pressing .atBk .quiet with op := .releaseall, delay := 1 }
    s.fsm = .atBk ∧ s.ActionByteEncoded ∧ (at' base .vBk .quiet).fsm = .vBk ∧ (pressing .kaKb .quiet).fsm = .kaKb := by
  decide

end Sys2Proof.Tests
end

