-- ==== Sys2Proof/Proofs/Pressed.lean ====
section
/-! PROOF. The pressed store (10_state.md R31): `removeFirst` is the library's `List.erase`, so the library's facts about the
order and the counts of the elements that stay hold of it. -/

namespace Sys2Proof.Machine

@[simp] theorem removeFirst_nil (k : Byte) : removeFirst [] k = [] := rfl

@[simp] theorem removeFirst_cons_self (k : Byte) (rest : List Byte) : removeFirst (k :: rest) k = rest :=
  if_pos rfl

@[simp] theorem removeFirst_cons_of_ne {x k : Byte} (h : x ≠ k) (rest : List Byte) :
    removeFirst (x :: rest) k = x :: removeFirst rest k :=
  if_neg h

theorem removeFirst_eq_erase (xs : List Byte) (k : Byte) : removeFirst xs k = xs.erase k := by
  induction xs with
  | nil => rw [removeFirst_nil, List.erase_nil]
  | cons x rest ih =>
    by_cases h : x = k
    · subst h
      rw [removeFirst_cons_self, List.erase_cons_head]
    · rw [removeFirst_cons_of_ne h, ih, List.erase_cons_tail (by simpa using h)]

/-- Settles O47: `List.erase` cuts the list at the oldest occurrence. -/
theorem removeFirstTakesTheOldest : Obligations.RemoveFirstTakesTheOldest := by
  unfold Obligations.RemoveFirstTakesTheOldest
  intro xs k
  rw [removeFirst_eq_erase]
  constructor
  · intro hmem
    obtain ⟨older, newer, hold, hsplit, herase⟩ := List.exists_erase_eq hmem
    exact ⟨older, newer, hsplit, hold, herase⟩
  · exact List.erase_of_not_mem

end Sys2Proof.Machine
end

