-- ==== Sys2Proof/Proofs/CommandRows.lean ====
section
/-! PROOF. The six rows of the command port (30_encoding.md R80, R81). A row's mask keeps the bits from some bit up and its
match is an opcode with zeros below it, so mask and match together ask of a word what the decoder asks of its fields. -/

namespace Sys2Proof.Machine

/-- A mask of the bits from `n` up, against an opcode with zeros below it: the opcode stands in bits 15:12, and the bits
from 11 down to `n` are zero. -/
theorem and_highMask_eq_opcode_iff (w : BitVec 16) (op : BitVec 4) (n : Nat) (hn : n ≤ 12 := by decide) :
    w &&& (BitVec.allOnes 16 <<< n) = op.setWidth 16 <<< 12 ↔
      w.extractLsb' 12 4 = op ∧ w.extractLsb' n (12 - n) = 0#(12 - n) := by
  rw [← BitVec.shiftLeft_ushiftRight]
  constructor
  · intro h
    have hbit (i : Nat) : (w >>> n <<< n).getLsbD i = (op.setWidth 16 <<< 12).getLsbD i := by rw [h]
    constructor
    · apply BitVec.eq_of_getLsbD_eq
      intro j hj
      have hop := hbit (12 + j)
      grind
    · apply BitVec.eq_of_getLsbD_eq
      intro j hj
      have hzero := hbit (n + j)
      grind
  · rintro ⟨rfl, hzero⟩
    apply BitVec.eq_of_getLsbD_eq
    intro i hi
    have hbit : (w.extractLsb' n (12 - n)).getLsbD (i - n) = false := by simp [hzero]
    grind

/-- The row of R81 an operation stands in, as a condition on a word: the row's mask and match, and the operands in their
fields. Only the six commands have a row. -/
def MatchesCmdRow (w : BitVec 16) : Instr → Prop
  | .verify => w &&& 0xFFFF#16 = 0x1000#16
  | .keyaction k a l => w &&& 0xF800#16 = 0x2000#16 ∧
      k = w.extractLsb' 0 8 ∧ a.code = w.extractLsb' 8 2 ∧ l = w.getLsbD 10
  | .press k => w &&& 0xFF00#16 = 0x3000#16 ∧ k = w.extractLsb' 0 8
  | .release k => w &&& 0xFF00#16 = 0x4000#16 ∧ k = w.extractLsb' 0 8
  | .releaseall => w &&& 0xFFFF#16 = 0x5000#16
  | .kbden => w &&& 0xFFFF#16 = 0x6000#16
  | _ => False

theorem matchesCmdRow_of_decodeCmd {w : BitVec 16} {i : Instr} (h : decodeCmd w = some i) : MatchesCmdRow w i := by
  simp only [decodeCmd] at h
  split_ifs at h with hverify hkeyaction hpress hrelease hreleaseall hkbden <;> cases h
  · exact (and_highMask_eq_opcode_iff w 1#4 0).mpr hverify
  · exact ⟨(and_highMask_eq_opcode_iff w 2#4 11).mpr hkeyaction, rfl, code_actionOfCode _, rfl⟩
  · exact ⟨(and_highMask_eq_opcode_iff w 3#4 8).mpr hpress, rfl⟩
  · exact ⟨(and_highMask_eq_opcode_iff w 4#4 8).mpr hrelease, rfl⟩
  · exact (and_highMask_eq_opcode_iff w 5#4 0).mpr hreleaseall
  · exact (and_highMask_eq_opcode_iff w 6#4 0).mpr hkbden

/-- A row's opcode shuts out the rows before it, so the decoder comes to the row. -/
theorem decodeCmd_of_matchesCmdRow {w : BitVec 16} {i : Instr} (h : MatchesCmdRow w i) : decodeCmd w = some i := by
  cases i with
  | verify =>
    obtain ⟨hop, hzero⟩ := (and_highMask_eq_opcode_iff w 1#4 0).mp h
    simp [decodeCmd, hop, hzero]
  | keyaction k a l =>
    obtain ⟨hrow, rfl, hcode, rfl⟩ := h
    obtain ⟨hop, hzero⟩ := (and_highMask_eq_opcode_iff w 2#4 11).mp hrow
    simp [decodeCmd, hop, hzero, ← hcode]
  | press k =>
    obtain ⟨hrow, rfl⟩ := h
    obtain ⟨hop, hzero⟩ := (and_highMask_eq_opcode_iff w 3#4 8).mp hrow
    simp [decodeCmd, hop, hzero]
  | release k =>
    obtain ⟨hrow, rfl⟩ := h
    obtain ⟨hop, hzero⟩ := (and_highMask_eq_opcode_iff w 4#4 8).mp hrow
    simp [decodeCmd, hop, hzero]
  | releaseall =>
    obtain ⟨hop, hzero⟩ := (and_highMask_eq_opcode_iff w 5#4 0).mp h
    simp [decodeCmd, hop, hzero]
  | kbden =>
    obtain ⟨hop, hzero⟩ := (and_highMask_eq_opcode_iff w 6#4 0).mp h
    simp [decodeCmd, hop, hzero]
  | _ => exact h.elim

/-- The decoder, said once for the command port: it reads an operation from exactly the words of the operation's row. -/
theorem decode_cmd_eq_ok_iff (w : BitVec 16) (i : Instr) : decode (.cmd w) = .ok i ↔ MatchesCmdRow w i := by
  have hcmd : decode (.cmd w) = .ok i ↔ decodeCmd w = some i := by
    cases h : decodeCmd w <;> simp [decode, h]
  exact hcmd.trans ⟨matchesCmdRow_of_decodeCmd, decodeCmd_of_matchesCmdRow⟩

/-- Settles O12: where a row has operands, the word's own fields are the ones the decoder reads, and a 2-bit action field
is always some action's code. -/
theorem commandRowsDecodeByMatchAndMask : Obligations.CommandRowsDecodeByMatchAndMask := by
  unfold Obligations.CommandRowsDecodeByMatchAndMask
  intro w
  simp only [decode_cmd_eq_ok_iff]
  refine ⟨.rfl, ⟨fun hrow => ?_, ?_⟩, ⟨fun hrow => ⟨_, ⟨hrow, rfl⟩, rfl⟩, ?_⟩, ⟨fun hrow => ⟨_, ⟨hrow, rfl⟩, rfl⟩, ?_⟩,
    .rfl, .rfl⟩
  · have hcode := code_actionOfCode (w.extractLsb' 8 2)
    exact ⟨_, _, _, ⟨hrow, rfl, hcode, rfl⟩, rfl, hcode, rfl⟩
  · rintro ⟨k, a, l, ⟨hrow, -⟩, -⟩
    exact hrow
  · rintro ⟨k, ⟨hrow, -⟩, -⟩
    exact hrow
  · rintro ⟨k, ⟨hrow, -⟩, -⟩
    exact hrow

end Sys2Proof.Machine
end

