-- ==== Sys2Proof/Proofs/FrameCodec.lean ====
section
/-! PROOF. The frame codec at its own ports (40_frame_codec.md R100, R104). One lemma per function of the codec says what it
computes in arithmetic, and one per operation which ports it writes; the statements put them together. -/

namespace Sys2Proof.Machine

/-- ENCODE drives the encoder's ports and nothing else (R100). -/
theorem exec_encode (k : Byte) (a : ActionKind) (l : Bool) (s : State) :
    exec (.encode k a l) s = .next { s with enc := ⟨k, a, l, k, encodeActionByte k a l⟩ } := rfl

/-- VALIDATE drives the validator's ports and nothing else (R104). -/
theorem exec_validate (k ab c : Byte) (s : State) :
    exec (.validate k ab c) s = .next { s with val := ⟨k, ab, c, validateConfirmation k ab c⟩ } := rfl

theorem even_eq_decide (n : Nat) : even n = decide (n % 2 = 0) := beq_eq_decide _ _

/-- Step 2 of ENCODE, with the parity test as a fact about numbers. -/
theorem withParity_eq_ite (k raw : Byte) :
    withParity k raw = if (popcount k + popcount raw) % 2 = 0 then raw ||| 0x80#8 else raw := by
  simp only [withParity, even_eq_decide, decide_eq_true_eq]

/-- Step 4 of ENCODE: the model adds bytes, the spec adds numbers and keeps the sum mod 256. -/
theorem encodeActionByte_eq_sum_mod (k : Byte) (a : ActionKind) (l : Bool) :
    encodeActionByte k a l = BitVec.ofNat 8
      (((withParity k (rawAction a l)).toNat + checksum k (withParity k (rawAction a l)) % 16) % 256) := by
  apply BitVec.eq_of_toNat_eq
  simp [encodeActionByte]

theorem checksumMismatch_eq_decide (k ab c : Byte) :
    checksumMismatch k ab c = decide ((c &&& 0x0F#8).toNat ≠ popcount k + popcount (ab &&& 0xF0#8)) := by
  simp only [checksumMismatch, expectedChecksum, bne, beq_eq_decide, ne_eq, decide_not]

theorem parityMismatch_eq_decide (c : Byte) : parityMismatch c = decide (popcount c % 2 = 0) :=
  even_eq_decide _

theorem remoteErrorFlag_eq_decide (c : Byte) : remoteErrorFlag c = decide (c &&& 0x40#8 ≠ 0#8) := by
  simp only [remoteErrorFlag, bne, beq_eq_decide, ne_eq, decide_not]

/-- Settles O2: the parity step and the final sum are the two places where the model computes in another form than R100. -/
theorem encodeFollowsItsFourSteps : Obligations.EncodeFollowsItsFourSteps := by
  unfold Obligations.EncodeFollowsItsFourSteps
  intro s k a l raw1 raw2 chk
  have hraw : withParity k (rawAction a l) = raw2 := withParity_eq_ite k raw1
  have hchk : checksum k raw2 = chk := rfl
  rw [exec_encode, encodeActionByte_eq_sum_mod, hraw, hchk]

/-- Settles O7: each error bit is the check of its place, and the flags are the byte's own bits. -/
theorem validateReportsAllThreeChecks : Obligations.ValidateReportsAllThreeChecks := by
  unfold Obligations.ValidateReportsAllThreeChecks
  intro s k ab c
  refine ⟨validateConfirmation k ab c, exec_validate k ab c s, ?checksum, ?parity, ?remote, ?ok, ?switchOn, ?ledOn⟩
  case checksum => exact (validationErr_checksum k ab c).trans (checksumMismatch_eq_decide k ab c)
  case parity => exact (validationErr_parity k ab c).trans (parityMismatch_eq_decide c)
  case remote => exact (validationErr_remote k ab c).trans (remoteErrorFlag_eq_decide c)
  case ok => exact beq_eq_decide _ _
  case switchOn => rfl
  case ledOn => rfl

end Sys2Proof.Machine
end

