-- ==== Sys2Proof/Proofs/Validation.lean ====
section
/-! PROOF. The step of `KA_VAL` and its commit (41_transport_engine.md R129, R139). First what the step computes, one
equation per verdict; then that no other row of the step machine writes the three fields a commit writes. -/

namespace Sys2Proof.Machine

/-! ## The step of `KA_VAL` -/

/-- The verdict of VALIDATE on the round trip at hand. -/
def State.verdict (s : State) : Verdict := validateConfirmation s.key s.abyte s.conf

/-- The outcome registers of a completed round trip, on the way to `RT_END` (R139). -/
def State.judged (s : State) : State :=
  { s with rt := ⟨true, s.verdict.ok, s.verdict.err⟩, fsm := .rtEnd }

/-- The step commits: `KA_VAL`, acted on by the engine, with a valid confirmation (R129). -/
def State.CommitDue (s : State) : Prop :=
  s.fsm = .kaVal ∧ s.port.engineActs = true ∧ s.verdict.ok = true

theorem State.trace_of_kaVal {s : State} (hf : s.fsm = .kaVal) :
    s.trace = some (s.key, s.abyte, s.conf, s.verdict.err) :=
  if_pos hf

theorem State.verdict_switchOn (s : State) : s.verdict.switchOn = s.conf.getLsbD 5 := rfl

theorem State.verdict_ledOn (s : State) : s.verdict.ledOn = s.conf.getLsbD 4 := rfl

theorem State.validateStep_of_invalid {s : State} (hok : s.verdict.ok = false) : s.validateStep = .next s.judged :=
  if_neg (Bool.eq_false_iff.mp hok)

theorem State.validateStep_of_valid {s : State} (hok : s.verdict.ok = true) :
    s.validateStep = s.judged.commit (s.conf.getLsbD 5) (s.conf.getLsbD 4) := by
  rw [← s.verdict_switchOn, ← s.verdict_ledOn]
  exact if_pos hok

/-- A commit that the store has room for writes the three fields (R129). -/
theorem State.commit_of_room {s : State} (hroom : ¬ (s.act = .press ∧ s.pressedAtCap = true)) (sw ld : Bool) :
    s.commit sw ld = .next
      { s with pressed := commitPressed s.pressed s.act s.key, switchEnabled := sw, ledOn := ld } :=
  if_neg hroom

theorem State.runAction_of_kaVal {s : State} (hf : s.fsm = .kaVal) (hp : s.port.engineActs = true) :
    s.runAction s.action = s.validateStep := by
  simp only [s.action_of_engineActs hp, State.engineAction, hf, State.runAction]

/-- Settles O32: without `ok` the step is the outcome registers alone, with `ok` it is their commit. -/
theorem validationTransition : Obligations.ValidationTransition := by
  unfold Obligations.ValidationTransition
  intro s hf hp v t
  refine ⟨State.trace_of_kaVal hf, fun hok => ?invalid, fun hok hroom => ?valid⟩
  case invalid =>
    exact step_of_action ((State.runAction_of_kaVal hf hp).trans (State.validateStep_of_invalid hok))
  case valid =>
    have hcommit := State.commit_of_room (s := s.judged) hroom (s.conf.getLsbD 5) (s.conf.getLsbD 4)
    exact step_of_action
      ((State.runAction_of_kaVal hf hp).trans ((State.validateStep_of_valid hok).trans hcommit))

/-! ## The frame of the commit -/

/-- What only a commit writes: `pressed`, `switch_enabled`, `led_on` (R129). -/
def State.committed (s : State) : List Byte × Bool × Bool := (s.pressed, s.switchEnabled, s.ledOn)

theorem State.committed_eq_iff (s t : State) :
    t.committed = s.committed ↔
      t.pressed = s.pressed ∧ t.switchEnabled = s.switchEnabled ∧ t.ledOn = s.ledOn := by
  simp only [State.committed, Prod.mk.injEq]

@[simp] theorem State.committed_advance (s : State) : s.advance.committed = s.committed := by
  simp only [State.committed, State.advance_pressed, State.advance_switchEnabled, State.advance_ledOn]

theorem State.committed_afterWrite (s : State) (err : Bool) : (s.afterWrite err).committed = s.committed := by
  rcases s.afterWrite_cases err with ⟨-, -, h⟩ | ⟨-, -, h⟩ | ⟨-, -, h⟩ | ⟨-, -, h⟩ | ⟨-, -, h⟩
  all_goals exact (congrArg State.committed h).trans rfl

theorem State.committed_busWrite (s : State) (a : Addr) (d : Byte) : (s.busWrite a d).committed = s.committed := by
  unfold State.busWrite
  split
  next err _ _ => exact (s.record (.write a d err)).committed_afterWrite err
  next => rfl

/-- A bounded attempt writes what its two ways out write. -/
theorem State.committed_failedAttempt {again giveUp : State → State}
    (hagain : ∀ t, (again t).committed = t.committed) (hgiveUp : ∀ t, (giveUp t).committed = t.committed) (s : State) :
    (s.failedAttempt again giveUp).committed = s.committed := by
  rcases s.failedAttempt_cases again giveUp with ⟨-, h⟩ | ⟨-, h⟩
  · rw [h, hagain]; rfl
  · rw [h, hgiveUp]; rfl

theorem State.committed_judgeIdentity (s : State) : s.judgeIdentity.committed = s.committed := by
  unfold State.judgeIdentity
  split <;> rfl

theorem State.committed_afterRead (s : State) (answer : Option Byte) :
    (s.afterRead answer).committed = s.committed := by
  unfold State.afterRead
  split
  next =>
    split
    next =>
      apply State.committed_failedAttempt
      case hagain => exact fun _ => rfl
      case hgiveUp => exact fun _ => rfl
    next => rfl
    next => rfl
  next b =>
    split
    next => exact { s with conf := b }.committed_judgeIdentity
    next => rfl
    next => rfl

theorem State.committed_busRead (s : State) (a : Addr) : (s.busRead a).committed = s.committed := by
  unfold State.busRead
  split
  next => exact (s.record (.read a none)).committed_afterRead none
  next b _ => exact (s.record (.read a (some b))).committed_afterRead (some b)
  next => rfl

theorem State.committed_delayStep (s : State) : s.delayStep.committed = s.committed := by
  unfold State.delayStep State.delayOver
  split
  next => split <;> rfl
  next => rfl

theorem State.committed_endSingle (s : State) : s.endSingle.committed = s.committed := by
  unfold State.endSingle
  split <;> rfl

theorem State.committed_retryRoundTrip {giveUp : State → State} (hgiveUp : ∀ t, (giveUp t).committed = t.committed)
    (s : State) : (s.retryRoundTrip giveUp).committed = s.committed := by
  unfold State.retryRoundTrip
  apply State.committed_failedAttempt
  case hagain => exact fun _ => rfl
  case hgiveUp => exact hgiveUp

theorem State.committed_endLoop (s : State) (flag : Bool) : (s.endLoop flag).committed = s.committed := by
  unfold State.endLoop
  split
  next => rfl
  next =>
    apply State.committed_retryRoundTrip
    exact fun _ => rfl

theorem State.committed_endProbe (s : State) : s.endProbe.committed = s.committed := by
  unfold State.endProbe
  split
  next => rfl
  next =>
    apply State.committed_retryRoundTrip
    exact fun _ => rfl

theorem State.committed_of_roundTripEnd {s u : State} (h : s.roundTripEnd = .next u) : u.committed = s.committed := by
  unfold State.roundTripEnd at h
  split at h <;> cases h
  next => exact s.committed_endProbe
  next => exact s.committed_endSingle
  next => exact s.committed_endSingle
  next => exact s.committed_endSingle
  next => exact s.committed_endLoop true
  next => exact s.committed_endLoop s.switchEnabled

/-- `KA_VAL` without a valid confirmation writes the outcome registers only. -/
theorem State.committed_of_validateStep {s u : State} (hok : s.verdict.ok ≠ true) (h : s.validateStep = .next u) :
    u.committed = s.committed := by
  rw [State.validateStep_of_invalid (Bool.eq_false_iff.mpr hok)] at h
  cases h
  rfl

/-- No row of the step machine but reset and the commit writes the three fields (R129). -/
theorem StepTo.committed_eq {s u : State} (h : StepTo s u) (hrst : s.port ≠ .rst) (hdue : ¬ s.CommitDue) :
    u.committed = s.committed := by
  cases h with
  | reset hp => exact absurd hp hrst
  | encode | validate | idle | illegal | verify | notVerified | single | loop | present => rfl
  | read => exact s.committed_busRead s.address
  | writeKey => exact s.committed_busWrite s.address s.key
  | writeAction => exact s.committed_busWrite s.address s.abyte
  | delay => exact s.committed_delayStep
  | judge _ hp hf hval => exact State.committed_of_validateStep (fun hok => hdue ⟨hf, hp, hok⟩) hval
  | decide _ _ _ hend => exact State.committed_of_roundTripEnd hend

/-- The three fields after a step that commits (R129). -/
theorem State.committed_of_commitDue {s t : State} (hdue : s.CommitDue) (h : step s = .next t) :
    t.committed = (commitPressed s.pressed s.act s.key, s.conf.getLsbD 5, s.conf.getLsbD 4) := by
  obtain ⟨hf, hp, hok⟩ := hdue
  obtain ⟨u, hu, rfl⟩ := step_next h
  rw [State.runAction_of_kaVal hf hp, State.validateStep_of_valid hok] at hu
  obtain ⟨-, rfl⟩ := State.commit_next hu
  rw [State.committed_advance]
  rfl

/-- Settles O41: a step that commits is computed; every other row leaves the three fields as they are. -/
theorem onlyTheCommitWritesTheSession : Obligations.OnlyTheCommitWritesTheSession := by
  unfold Obligations.OnlyTheCommitWritesTheSession
  intro s t h hrst valid
  constructor
  · intro hvalid
    have hcommitted := State.committed_of_commitDue hvalid h
    simp only [State.committed, Prod.mk.injEq] at hcommitted
    obtain ⟨hpressed, hswitch, hled⟩ := hcommitted
    refine ⟨?press, ?release, ?releaseAll, ?test, hswitch, hled⟩
    all_goals
      intro hact
      rw [hpressed, hact]
      rfl
  · intro hvalid
    obtain ⟨u, hto, rfl⟩ := step_cases h
    rw [← State.committed_eq_iff, State.committed_advance]
    exact hto.committed_eq hrst hvalid

end Sys2Proof.Machine
end

