-- ==== Sys2Proof/Proofs/Reset.lean ====
section
/-! PROOF. Reset (70_reset_and_hazards.md R200, R201). The action taken under `rst` does not look at the sequencer state, so one
equation of the step covers every state; the output ports of the state it leads to follow from `IDLE`. -/

namespace Sys2Proof.Machine

/-! ## The output ports in `IDLE` -/

theorem State.cmdReady_of_idle {s : State} (hf : s.fsm = .idle) : s.cmdReady = true :=
  beq_iff_eq.mpr hf

theorem State.tReq_of_idle {s : State} (hf : s.fsm = .idle) : s.tReq = false := by
  simp only [State.tReq, State.tRw, hf, Option.isSome_none]

theorem State.trace_of_idle {s : State} (hf : s.fsm = .idle) : s.trace = none :=
  if_neg (by simp [hf])

/-! ## The step under `rst` -/

theorem State.action_of_rst {s : State} (hp : s.port = .rst) : s.action = .reset := by
  simp only [State.action, hp]

theorem step_of_rst {s : State} (hp : s.port = .rst) : step s = .next s.hardReset.advance :=
  step_of_action (by rw [State.action_of_rst hp]; rfl)

/-- Settles O36: the step is `hardReset`, the move of the input ports writes no state element, and the output ports are
those of `IDLE`. -/
theorem resetTakesEveryElement : Obligations.ResetTakesEveryElement := by
  unfold Obligations.ResetTakesEveryElement
  intro s hp
  have hidle : s.hardReset.advance.fsm = .idle := by rw [State.advance_fsm, State.hardReset_fsm]; rfl
  refine ⟨s.hardReset.advance, step_of_rst hp, ?verified, ?switchEnabled, ?ledOn, ?pressed, ?address, hidle, ?att, ?op,
    ?key, ?act, ?led, ?abyte, ?conf, ?rt, ?rsp, State.tReq_of_idle hidle, State.trace_of_idle hidle,
    State.cmdReady_of_idle hidle⟩
  case address => rw [State.advance_address, State.hardReset_address]
  all_goals
    simp [State.reset, Response.reset, Op.code, ActionKind.code]

end Sys2Proof.Machine
end

