-- ==== Sys2Proof/Proofs/Encodings.lean ====
section
/-! PROOF. Decode and encode agree, both ways (30_encoding.md sections 2 and 4). A pack function puts fields side by side and
the decoder cuts them out. `Laws/Operands.lean` has that cutting a packed word gives its fields back; here it is that packing
a word's own fields gives the word back. -/

namespace Sys2Proof.Machine

/-! ## Fields of a word that are zero -/

theorem extractLsb'_eq_zero_iff {m : Nat} (w : BitVec m) (low len : Nat) :
    w.extractLsb' low len = 0#len ↔ ∀ i < len, w.getLsbD (low + i) = false := by
  constructor
  · intro h i hi
    have hbit : (w.extractLsb' low len).getLsbD i = false := by simp [h]
    simpa [hi] using hbit
  · intro h
    apply BitVec.eq_of_getLsbD_eq
    intro i hi
    simp [hi, h i hi]

/-- The twelve bits below the opcode are bit 11 and the others. -/
theorem extractLsb'_to_bit_eleven_eq_zero_iff (w : BitVec 16) (low len : Nat) (h : low + len = 11) :
    w.extractLsb' low (len + 1) = 0#(len + 1) ↔ w.getLsbD 11 = false ∧ w.extractLsb' low len = 0#len := by
  simp only [extractLsb'_eq_zero_iff, Nat.forall_lt_succ_right, h, and_comm]

/-- PRESS and RELEASE have zeros in LED and ACT. -/
theorem packCmd_flags_zero (op : BitVec 4) (key : Byte) : (packCmd op false 0#2 key).extractLsb' 8 4 = 0#4 := by
  have haction := packCmd_action op false 0#2 key
  have hled := packCmd_led_bit op false 0#2 key
  have hzero := packCmd_zero_bit op false 0#2 key
  simp only [extractLsb'_eq_zero_iff, Nat.forall_lt_succ_right, ← BitVec.getLsbD_eq_getElem] at haction hled hzero ⊢
  exact ⟨⟨haction, hled⟩, hzero⟩

/-- VERIFY, RELEASEALL and KBDEN have zeros below the opcode. -/
theorem packCmd_operands_zero (op : BitVec 4) : (packCmd op false 0#2 0#8).extractLsb' 0 12 = 0#12 := by
  revert op; decide

/-- Settles O14: the fields of the packed word are the operands, and the zero fields pass the decoder's checks. -/
theorem decodeOfEncodeIsTheInstruction : Obligations.DecodeOfEncodeIsTheInstruction := by
  unfold Obligations.DecodeOfEncodeIsTheInstruction
  intro i
  cases i with
  | verify | releaseall | kbden => simp [decode, encode, decodeCmd, packCmd_operands_zero]
  | keyaction key action led => simp [decode, encode, decodeCmd]
  | press key | release key => simp [decode, encode, decodeCmd, packCmd_flags_zero]
  | encode key action led => simp [decode, encode, decodeEncIn]
  | validate key actionByte confirm => simp [decode, encode, decodeValIn]
  | buswrite addr data => exact decode_packTportWrite addr data
  | busread addr => exact decode_packTportRead addr
  | frame key parity led action checksum => simp [decode, encode, decodeFrame]
  | actionByteTest parity led checksum | actionBytePress parity led checksum
  | actionByteRelease parity led checksum | actionByteReleaseAll parity led checksum =>
    simp [decode, encode, decodeActionByte]
  | confirm parity error switch led checksum => simp [decode, encode, decodeConfirm]
  | identity => simp [decode, encode]
  | rsp status flag ok err confirm => exact decode_packRsp status flag ok err confirm

/-! ## A word's own fields, packed -/

theorem bit_getElem_eq_extractLsb' {n : Nat} (w : BitVec n) (j : Nat) (h : j < n) :
    bit w[j] = w.extractLsb' j 1 := by
  apply BitVec.eq_of_getLsbD_eq
  intro i hi
  obtain rfl : i = 0 := by omega
  simp [h]

theorem packCmd_of_fields {w : BitVec 16} (h : w.extractLsb' 11 1 = 0#1) :
    packCmd (w.extractLsb' 12 4) w[10] (w.extractLsb' 8 2) (w.extractLsb' 0 8) = w := by
  simp (disch := decide) only [packCmd, bit_getElem_eq_extractLsb', ← h,
    BitVec.extractLsb'_append_extractLsb'_eq_extractLsb']
  exact BitVec.extractLsb'_eq_self

theorem packEncIn_of_fields (w : BitVec 11) :
    packEncIn w[10] (actionOfCode (w.extractLsb' 8 2)) (w.extractLsb' 0 8) = w := by
  simp (disch := decide) only [packEncIn, code_actionOfCode, bit_getElem_eq_extractLsb',
    BitVec.extractLsb'_append_extractLsb'_eq_extractLsb']
  exact BitVec.extractLsb'_eq_self

theorem packValIn_of_fields (w : BitVec 24) :
    packValIn (w.extractLsb' 16 8) (w.extractLsb' 8 8) (w.extractLsb' 0 8) = w := by
  simp (disch := decide) only [packValIn, BitVec.extractLsb'_append_extractLsb'_eq_extractLsb']
  exact BitVec.extractLsb'_eq_self

theorem packTportWrite_of_fields {w : BitVec 16} (h : w[15] = false) :
    packTportWrite (w.extractLsb' 8 7) (w.extractLsb' 0 8) = w := by
  have hrw : 0#1 = w.extractLsb' 15 1 := by rw [← bit_getElem_eq_extractLsb' w 15 (by decide), h]; rfl
  simp (disch := decide) only [packTportWrite, hrw, BitVec.extractLsb'_append_extractLsb'_eq_extractLsb']
  exact BitVec.extractLsb'_eq_self

theorem packTportRead_of_fields {w : BitVec 8} (h : w[7] = true) : packTportRead (w.extractLsb' 0 7) = w := by
  have hrw : 1#1 = w.extractLsb' 7 1 := by rw [← bit_getElem_eq_extractLsb' w 7 (by decide), h]; rfl
  simp (disch := decide) only [packTportRead, hrw, BitVec.extractLsb'_append_extractLsb'_eq_extractLsb']
  exact BitVec.extractLsb'_eq_self

theorem packActionByte_of_fields (w : Byte) :
    packActionByte w[7] w[6] (actionOfCode (w.extractLsb' 4 2)) (w.extractLsb' 0 4) = w := by
  simp (disch := decide) only [packActionByte, code_actionOfCode, bit_getElem_eq_extractLsb',
    BitVec.extractLsb'_append_extractLsb'_eq_extractLsb']
  exact BitVec.extractLsb'_eq_self

theorem packFrame_of_fields (w : BitVec 16) : packFrame (w.extractLsb' 8 8) (w.extractLsb' 0 8) = w := by
  simp (disch := decide) only [packFrame, BitVec.extractLsb'_append_extractLsb'_eq_extractLsb']
  exact BitVec.extractLsb'_eq_self

theorem packConfirm_of_fields (w : Byte) : packConfirm w[7] w[6] w[5] w[4] (w.extractLsb' 0 4) = w := by
  simp (disch := decide) only [packConfirm, bit_getElem_eq_extractLsb',
    BitVec.extractLsb'_append_extractLsb'_eq_extractLsb']
  exact BitVec.extractLsb'_eq_self

theorem packRsp_of_fields (w : BitVec 17) :
    packRsp w[16] (w.extractLsb' 13 3) w[12] w[11] (w.extractLsb' 8 3) (w.extractLsb' 0 8) = w := by
  simp (disch := decide) only [packRsp, bit_getElem_eq_extractLsb',
    BitVec.extractLsb'_append_extractLsb'_eq_extractLsb']
  exact BitVec.extractLsb'_eq_self

/-! ## The encoding of what a word decodes to -/

/-- A command word whose upper operand field is zero is packed from its opcode and its key. -/
theorem packCmd_of_flags_zero {w : BitVec 16} (h : w.extractLsb' 8 4 = 0#4) :
    packCmd (w.extractLsb' 12 4) false 0#2 (w.extractLsb' 0 8) = w := by
  have hbits := (extractLsb'_eq_zero_iff w 8 4).mp h
  have hled : w[10] = false := hbits 2 (by decide)
  have haction : w.extractLsb' 8 2 = 0#2 := (extractLsb'_eq_zero_iff w 8 2).mpr fun i hi => hbits i (by omega)
  have hzero : w.extractLsb' 11 1 = 0#1 := (extractLsb'_eq_zero_iff w 11 1).mpr fun i hi => by
    obtain rfl : i = 0 := by omega
    exact hbits 3 (by decide)
  rw [← hled, ← haction, packCmd_of_fields hzero]

/-- A command word with zeros below the opcode is packed from its opcode. -/
theorem packCmd_of_operands_zero {w : BitVec 16} (h : w.extractLsb' 0 12 = 0#12) :
    packCmd (w.extractLsb' 12 4) false 0#2 0#8 = w := by
  have hbits := (extractLsb'_eq_zero_iff w 0 12).mp h
  have hkey : w.extractLsb' 0 8 = 0#8 := (extractLsb'_eq_zero_iff w 0 8).mpr fun i hi => hbits i (by omega)
  have hflags : w.extractLsb' 8 4 = 0#4 := (extractLsb'_eq_zero_iff w 8 4).mpr fun i hi => by
    simpa using hbits (8 + i) (by omega)
  rw [← hkey, packCmd_of_flags_zero hflags]

theorem encode_of_decodeCmd {w : BitVec 16} {i : Instr} (h : decodeCmd w = some i) : encode i = .cmd w := by
  simp only [decodeCmd] at h
  split_ifs at h with hverify hkeyaction hpress hrelease hreleaseall hkbden <;> cases h <;> apply congrArg PortWord.cmd
  · rw [← hverify.1, packCmd_of_operands_zero hverify.2]
  · rw [← hkeyaction.1, code_actionOfCode, packCmd_of_fields hkeyaction.2]
  · rw [← hpress.1, packCmd_of_flags_zero hpress.2]
  · rw [← hrelease.1, packCmd_of_flags_zero hrelease.2]
  · rw [← hreleaseall.1, packCmd_of_operands_zero hreleaseall.2]
  · rw [← hkbden.1, packCmd_of_operands_zero hkbden.2]

/-- The ACTION_BYTE row of an action byte's code carries the byte's other fields. -/
theorem encode_decodeActionByte (w : Byte) : encode (decodeActionByte w) = .actionByte w := by
  have hfields := packActionByte_of_fields w
  unfold decodeActionByte
  cases haction : actionOfCode (w.extractLsb' 4 2) <;> rw [haction] at hfields <;>
    exact congrArg PortWord.actionByte hfields

theorem encode_of_decodeRsp {w : BitVec 17} {i : Instr} (h : decodeRsp w = .ok i) : encode i = .rsp w := by
  unfold decodeRsp at h
  split at h
  next hvalid =>
    split at h
    next status hstatus =>
      cases h
      apply congrArg PortWord.rsp
      rw [code_of_statusOfCode hstatus, ← hvalid, packRsp_of_fields]
    next => cases h
  next => cases h

/-- Settles O15: on every line the fields the decoder reads, together with the bits it checks, make up the word. -/
theorem encodeOfDecodeIsTheWord : Obligations.EncodeOfDecodeIsTheWord := by
  unfold Obligations.EncodeOfDecodeIsTheWord
  intro p i h
  cases p with
  | cmd w =>
    cases hcmd : decodeCmd w with
    | none => simp [decode, hcmd] at h
    | some j =>
      obtain rfl : j = i := by simpa [decode, hcmd] using h
      exact encode_of_decodeCmd hcmd
  | encIn w => cases h; exact congrArg PortWord.encIn (packEncIn_of_fields w)
  | valIn w => cases h; exact congrArg PortWord.valIn (packValIn_of_fields w)
  | tportWrite w =>
    cases hrw : w[15] <;> simp only [decode, hrw] at h <;> cases h
    exact congrArg PortWord.tportWrite (packTportWrite_of_fields hrw)
  | tportRead w =>
    cases hrw : w[7] <;> simp only [decode, hrw] at h <;> cases h
    exact congrArg PortWord.tportRead (packTportRead_of_fields hrw)
  | frame w =>
    cases h
    exact congrArg PortWord.frame (by rw [packActionByte_of_fields, packFrame_of_fields])
  | actionByte w => cases h; exact encode_decodeActionByte w
  | confirm w => cases h; exact congrArg PortWord.confirm (packConfirm_of_fields w)
  | identity w =>
    by_cases hid : w = Config.identity <;> simp only [decode, hid, if_true, if_false] at h <;> cases h
    rw [hid]; rfl
  | rsp w => exact encode_of_decodeRsp h

/-- Settles O16. -/
theorem sampleWordsDecode : Obligations.SampleWordsDecode := by
  unfold Obligations.SampleWordsDecode
  decide

end Sys2Proof.Machine
end

