-- ==== Sys2Proof/Proofs/Operations.lean ====
section
/-! PROOF. The operations one by one: the six commands (41_transport_engine.md R124, R125, R135), the bus and the wire formats
(R121, R122; 30_encoding.md R71 to R78), the response (R141). -/

namespace Sys2Proof.Machine

/-! ## Commands -/

/-- An armed engine starts the round trip (R135). -/
theorem State.started_of_armed {s : State} (hf : s.fsm = .idle) (hv : s.verified = true) (op : Op) (key : Byte)
    (action : ActionKind) (led : Bool) :
    (s.onIdle fun t => t.guarded fun u => (u.latch op key action led).startRT) = s.started op key action led := by
  rw [State.onIdle_of_idle _ _ hf, State.guarded_of_verified s.accept _ hv]
  rfl

/-- An armed engine starts a bounded loop of round trips with `att` = 0 (R135). -/
theorem State.loop_started_of_armed {s : State} (hf : s.fsm = .idle) (hv : s.verified = true) (op : Op) (key : Byte)
    (action : ActionKind) (led : Bool) :
    (s.onIdle fun t => t.guarded fun u => ({ u with att := 0#4 }.latch op key action led).startRT) =
      { s.started op key action led with att := 0#4 } := by
  rw [State.onIdle_of_idle _ _ hf, State.guarded_of_verified s.accept _ hv]
  rfl

/-- An unarmed engine answers `NotVerified`, whatever the command would run (R125). -/
theorem State.answered_of_unarmed {s : State} (hf : s.fsm = .idle) (hv : s.verified = false) (run : State → State) :
    (s.onIdle fun t => t.guarded run) = s.answered ⟨false, .notVerified, false, false, 0#3, 0#8⟩ := by
  rw [State.onIdle_of_idle _ _ hf, State.guarded_of_unverified s.accept _ hv]
  rfl

theorem exec_verify_of_idle {s : State} (hf : s.fsm = .idle) :
    exec .verify s = .next { s with rsp := { s.rsp with valid := false }, op := .verify, att := 0#4, fsm := .vRd } :=
  congrArg Host.Outcome.next (State.onIdle_of_idle s _ hf)

/-- Settles O17. -/
theorem verifyStartsTheIdentityRead : Obligations.VerifyStartsTheIdentityRead := by
  unfold Obligations.VerifyStartsTheIdentityRead
  exact fun _ => exec_verify_of_idle

/-- Settles O18. -/
theorem armedCommandsStartTheirRoundTrip : Obligations.ArmedCommandsStartTheirRoundTrip := by
  unfold Obligations.ArmedCommandsStartTheirRoundTrip
  intro s hf hv
  refine ⟨fun k a l => ?keyaction, fun k => ?press, fun k => ?release, ?releaseall, ?kbden⟩
  case keyaction | press | release => exact congrArg Host.Outcome.next (State.started_of_armed hf hv ..)
  case releaseall | kbden => exact congrArg Host.Outcome.next (State.loop_started_of_armed hf hv ..)

/-- Settles O19. -/
theorem guardAnswersNotVerified : Obligations.GuardAnswersNotVerified := by
  unfold Obligations.GuardAnswersNotVerified
  intro s hf hv
  refine ⟨?guarded, _, exec_verify_of_idle hf, rfl⟩
  case guarded =>
    rintro i (⟨k, a, l, rfl⟩ | ⟨k, rfl⟩ | ⟨k, rfl⟩ | rfl | rfl)
    all_goals exact congrArg Host.Outcome.next (State.answered_of_unarmed hf hv _)

/-- Settles O20. -/
theorem commandsAreNotSeenWhileBusy : Obligations.CommandsAreNotSeenWhileBusy := by
  unfold Obligations.CommandsAreNotSeenWhileBusy
  intro s hf
  rintro i (rfl | ⟨k, a, l, rfl⟩ | ⟨k, rfl⟩ | ⟨k, rfl⟩ | rfl | rfl)
  all_goals exact congrArg Host.Outcome.next (State.onIdle_of_busy s _ hf)

/-! ## The bus -/

/-- The write of the model follows the policy table (R121, R137, R138). -/
theorem State.busWrite_eq_writeResult (s : State) (addr : Addr) (data : Byte) :
    s.busWrite addr data = s.writeResult addr data := by
  unfold State.writeResult
  split
  next err _ hp =>
    rw [State.busWrite_of_done s addr data err _ hp]
    cases hf : s.fsm <;> cases err <;> simp [State.afterWrite, State.record, State.abortRT, State.backoff, hf]
  next hp => exact State.busWrite_of_waiting s addr data hp

/-- The identity candidate, judged (R132, R136). -/
theorem State.judgeIdentity_eq_ite (s : State) : s.judgeIdentity =
    if s.conf = 0x82#8 then
      { s with
        verified := true, att := 0#4, key := 0#8, act := .test, led := false
        abyte := encodeActionByte 0#8 .test false, fsm := .kaWk }
    else { s with verified := false, rsp := ⟨false, .done, false, false, 0#3, 0#8⟩, fsm := .resp } := rfl

/-- The answered read of the model follows the policy table (R122, R132, R136, R138). -/
theorem State.readAnswered_eq_readResult (s : State) (addr : Addr) (answer : Option Byte) :
    s.readAnswered addr answer = s.readResult addr answer := by
  cases answer with
  | some b =>
    cases hf : s.fsm <;>
      simp [State.readAnswered, State.afterRead, State.readResult, State.record, State.judgeIdentity_eq_ite, hf]
  | none =>
    cases hf : s.fsm <;>
      simp [State.readAnswered, State.afterRead, State.readResult, State.record, State.failedAttempt,
        State.abortRT, State.backoff, State.unverify, State.respondStatus, State.respond, Config.maxAttempts, hf]

/-! ### The rows of the policy tables -/

theorem State.readResult_kaRc_some {s : State} (hf : s.fsm = .kaRc) (addr : Addr) (b : Byte) :
    s.readResult addr (some b) = { s with bus := s.bus ++ [BusEvent.read addr (some b)], conf := b, fsm := .kaVal } := by
  simp only [State.readResult, hf]

theorem State.readResult_kaRc_none {s : State} (hf : s.fsm = .kaRc) (addr : Addr) : s.readResult addr none =
    { s with bus := s.bus ++ [BusEvent.read addr none], rt := ⟨false, false, 0#3⟩, fsm := .rtEnd } := by
  simp only [State.readResult, hf]

theorem exec_buswrite (addr : Addr) (data : Byte) (s : State) :
    exec (.buswrite addr data) s = .next (s.writeResult addr data) :=
  congrArg Host.Outcome.next (s.busWrite_eq_writeResult addr data)

/-- Settles O22. -/
theorem buswriteFollowsTheIssuingState : Obligations.BuswriteFollowsTheIssuingState := by
  unfold Obligations.BuswriteFollowsTheIssuingState
  exact fun s addr data => exec_buswrite addr data s

theorem exec_busread_of_byte {s : State} {b : Byte} (hp : s.port = .done false b) (addr : Addr) :
    exec (.busread addr) s = .next (s.readResult addr (some b)) := by
  rw [← State.readAnswered_eq_readResult, ← State.busRead_of_byte s addr b hp]
  rfl

theorem exec_busread_of_error {s : State} {b : Byte} (hp : s.port = .done true b) (addr : Addr) :
    exec (.busread addr) s = .next (s.readResult addr none) := by
  rw [← State.readAnswered_eq_readResult, ← State.busRead_of_error s addr b hp]
  rfl

theorem exec_busread_of_waiting {s : State} (hp : ∀ e b, s.port ≠ .done e b) (addr : Addr) :
    exec (.busread addr) s = .next s :=
  congrArg Host.Outcome.next (State.busRead_of_waiting s addr hp)

/-- Settles O23. -/
theorem busreadFollowsTheIssuingState : Obligations.BusreadFollowsTheIssuingState := by
  unfold Obligations.BusreadFollowsTheIssuingState
  exact fun s addr => ⟨fun _ hp => exec_busread_of_byte hp addr, fun _ hp => exec_busread_of_error hp addr,
    fun hp => exec_busread_of_waiting hp addr⟩

/-! ## The wire formats -/

theorem exec_frame (key : Byte) (parity led : Bool) (action : ActionKind) (checksum : BitVec 4) (s : State) :
    exec (.frame key parity led action checksum) s = .next (s.writeResult s.address
      (if s.fsm = .kaWa then packActionByte parity led action checksum else key)) :=
  exec_buswrite s.address _ s

/-- Settles O24: the first write goes on to the second byte's state, and there the frame's due byte is the action byte. -/
theorem frameIsTwoWritesInOrder : Obligations.FrameIsTwoWritesInOrder := by
  unfold Obligations.FrameIsTwoWritesInOrder
  intro s k p l a c ab
  refine ⟨exec_frame k p l a c s, fun b b' hf hp => ?_⟩
  refine ⟨{ s with bus := s.bus ++ [BusEvent.write s.address k false], fsm := .kaWa }, ?first, rfl, ?second⟩
  case first => rw [exec_frame, if_neg (by simp [hf]), State.writeResult, hp, hf]
  case second => simp [exec_frame, State.writeResult, ab]

/-- Settles O25. -/
theorem actionBytesAreWritten : Obligations.ActionBytesAreWritten := by
  unfold Obligations.ActionBytesAreWritten
  intro s p l c
  exact ⟨exec_buswrite .., exec_buswrite .., exec_buswrite .., exec_buswrite ..⟩

theorem exec_confirm (parity error switch led : Bool) (checksum : BitVec 4) (s : State) :
    exec (.confirm parity error switch led checksum) s =
      .next (s.readResult s.address (some (packConfirm parity error switch led checksum))) :=
  congrArg Host.Outcome.next (s.readAnswered_eq_readResult ..)

theorem exec_identity (s : State) : exec .identity s = .next (s.readResult s.address (some 0x82#8)) :=
  congrArg Host.Outcome.next (s.readAnswered_eq_readResult ..)

/-- Settles O26. -/
theorem confirmAndIdentityAnswerARead : Obligations.ConfirmAndIdentityAnswerARead := by
  unfold Obligations.ConfirmAndIdentityAnswerARead
  exact fun s => ⟨fun p e sw l c => exec_confirm p e sw l c s, exec_identity s⟩

/-! ## The response -/

theorem exec_rsp_of_resp {s : State} (hf : s.fsm = .resp) (status : Status) (flag ok : Bool) (err : BitVec 3)
    (confirm : Byte) :
    exec (.rsp status flag ok err confirm) s =
      .next { s with rsp := ⟨true, status, flag, ok, err, confirm⟩, fsm := .idle } :=
  if_pos hf

/-- Settles O27. -/
theorem responseIsPresentedInResp : Obligations.ResponseIsPresentedInResp := by
  unfold Obligations.ResponseIsPresentedInResp
  exact fun s st f o e c => ⟨fun hf => exec_rsp_of_resp hf st f o e c, fun hf => if_neg hf⟩

end Sys2Proof.Machine
end

