-- ==== Sys2Proof/Proofs/Transitions.lean ====
section
/-! PROOF. The transition table (41_transport_engine.md R134 to R141): first which action a step runs in each sequencer state,
then what each row makes of the state. -/

namespace Sys2Proof.Machine

/-! ## The action of a step -/

/-- A step whose action is a word runs the word's operation. -/
theorem step_of_word {s : State} {w : PortWord} {i : Instr} (ha : s.action = .word w) (hd : decode w = .ok i) :
    step s = advanceOutcome (exec i s) := by
  rw [step, ha, State.runAction, State.runWord_of_decode hd]

/-- Settles O28. -/
theorem stepRunsTheDecodedWord : Obligations.StepRunsTheDecodedWord := by
  unfold Obligations.StepRunsTheDecodedWord
  intro s w i ha hd
  rw [step_of_word ha hd]
  rfl

theorem step_of_engineActs {s : State} (hp : s.port.engineActs = true) :
    step s = advanceOutcome (s.runAction s.engineAction) := by
  rw [step, State.action_of_engineActs s hp]

theorem step_of_read {s : State} (hp : s.port.engineActs = true) (hf : s.fsm = .vRd ∨ s.fsm = .kaRc) :
    step s = advanceOutcome (exec (.busread s.address) s) := by
  apply step_of_word _ (decode_packTportRead s.address)
  rcases hf with hf | hf <;> rw [State.action_of_engineActs s hp, State.engineAction, hf]

theorem step_of_writeKey {s : State} (hp : s.port.engineActs = true) (hf : s.fsm = .kaWk) :
    step s = advanceOutcome (exec (.buswrite s.address s.key) s) := by
  apply step_of_word _ (decode_packTportWrite s.address s.key)
  rw [State.action_of_engineActs s hp, State.engineAction, hf]

theorem step_of_writeAction {s : State} (hp : s.port.engineActs = true) (hf : s.fsm = .kaWa) :
    step s = advanceOutcome (exec (.buswrite s.address s.abyte) s) := by
  apply step_of_word _ (decode_packTportWrite s.address s.abyte)
  rw [State.action_of_engineActs s hp, State.engineAction, hf]

theorem step_of_backoff {s : State} (hp : s.port.engineActs = true) (hf : s.fsm.isBackoff = true) :
    step s = .next s.delayStep.advance := by
  have ha : s.engineAction = .delay := by
    revert hf
    unfold State.engineAction
    cases s.fsm <;> simp [Fsm.isBackoff]
  rw [step_of_engineActs hp, ha]
  rfl

theorem step_of_kaVal {s : State} (hp : s.port.engineActs = true) (hf : s.fsm = .kaVal) :
    step s = advanceOutcome s.validateStep := by
  rw [step, State.runAction_of_kaVal hf hp]

theorem step_of_rtEnd {s : State} (hp : s.port.engineActs = true) (hf : s.fsm = .rtEnd) :
    step s = advanceOutcome s.roundTripEnd := by
  rw [step_of_engineActs hp, State.engineAction, hf, State.runAction]

theorem step_of_resp {s : State} (hp : s.port.engineActs = true) (hf : s.fsm = .resp) :
    step s = advanceOutcome (exec (.rsp s.rsp.status s.rsp.flag s.rsp.ok s.rsp.err s.rsp.confirm) s) := by
  apply step_of_word _ (decode_packRsp ..)
  rw [State.action_of_engineActs s hp, State.engineAction, hf]

/-- The command port is looked at in `IDLE` (R124). -/
theorem step_of_idle_cmd {s : State} {w : BitVec 16} (hf : s.fsm = .idle) (hp : s.port = .cmd w) :
    step s = advanceOutcome (s.runWord (.cmd w)) := by
  rw [step_of_engineActs (by rw [hp]; rfl), State.engineAction, hf, hp, State.runAction]

/-! ## The wire formats as the words the states stand for -/

theorem decodeFrame_packFrame (key actionByte : Byte) : decodeFrame (packFrame key actionByte) =
    .frame key actionByte[7] actionByte[6] (actionOfCode (actionByte.extractLsb' 4 2))
      (actionByte.extractLsb' 0 4) := by
  simp only [decodeFrame, packFrame_key, packFrame_actionByte]

/-- A frame is the write of the byte that is due (30_encoding.md R71). -/
theorem exec_decodeFrame (key actionByte : Byte) (s : State) : exec (decodeFrame (packFrame key actionByte)) s =
    exec (.buswrite s.address (if s.fsm = .kaWa then actionByte else key)) s := by
  rw [decodeFrame_packFrame, exec_frame, packActionByte_of_fields, exec_buswrite]

/-- An action byte is the write of itself (30_encoding.md R72). -/
theorem exec_decodeActionByte (w : Byte) (s : State) :
    exec (decodeActionByte w) s = exec (.buswrite s.address w) s := by
  have hfields := packActionByte_of_fields w
  unfold decodeActionByte
  cases haction : actionOfCode (w.extractLsb' 4 2) <;> rw [haction] at hfields <;>
    exact congrArg (fun b => exec (.buswrite s.address b) s) hfields

theorem exec_decodeConfirm (b : Byte) (s : State) :
    exec (decodeConfirm b) s = .next (s.readResult s.address (some b)) := by
  rw [decodeConfirm, exec_confirm, packConfirm_of_fields]

/-- Settles O29. -/
theorem eachStateRunsItsOperation : Obligations.EachStateRunsItsOperation := by
  unfold Obligations.EachStateRunsItsOperation
  intro s
  refine ⟨fun v hp => ?encIn, fun v hp => ?valIn, fun hp => ⟨step_of_read hp, step_of_writeKey hp,
    step_of_writeAction hp, fun hf => ?frame, fun hf => ?actionByte, fun b hf hb => ?confirm, fun hf hb => ?identity,
    step_of_resp hp⟩⟩
  case encIn => exact step_of_word (show s.action = .word (.encIn v) by rw [State.action, hp]) rfl
  case valIn => exact step_of_word (show s.action = .word (.valIn v) by rw [State.action, hp]) rfl
  case frame =>
    rw [exec_decodeFrame]
    rcases hf with hf | hf
    · rw [step_of_writeKey hp hf, if_neg (by simp [hf])]
    · rw [step_of_writeAction hp hf, if_pos hf]
  case actionByte => rw [exec_decodeActionByte, step_of_writeAction hp hf]
  case confirm => rw [exec_decodeConfirm, step_of_read hp (.inr hf), exec_busread_of_byte hb]
  case identity => rw [exec_identity, step_of_read hp (.inl hf), exec_busread_of_byte hb]

/-! ## The rows of `IDLE` -/

theorem step_of_idle_without_cmd {s : State} (hf : s.fsm = .idle)
    (hp : s.port = .quiet ∨ ∃ e b, s.port = .done e b) : step s = .next s.advance := by
  apply step_of_action
  rcases hp with hp | ⟨e, b, hp⟩ <;> simp [State.action, State.engineAction, hf, hp, State.runAction]

theorem step_of_idle_illegal {s : State} {w : BitVec 16} {e : DecodeError} (hf : s.fsm = .idle) (hp : s.port = .cmd w)
    (hd : decode (.cmd w) = .error e) :
    step s = .next (s.answered ⟨false, .illegalCmd, false, false, 0#3, 0#8⟩).advance := by
  rw [step_of_idle_cmd hf hp, State.runWord, hd]
  rfl

/-- A legal word goes on as its command does. -/
theorem step_of_idle_command {s t : State} {w : BitVec 16} {i : Instr} (hf : s.fsm = .idle) (hp : s.port = .cmd w)
    (hd : decode (.cmd w) = .ok i) (he : exec i s = .next t) : step s = .next t.advance := by
  rw [step_of_idle_cmd hf hp, State.runWord_of_decode hd, he, advanceOutcome]

/-- Settles O21. -/
theorem idleTransitions : Obligations.IdleTransitions := by
  unfold Obligations.IdleTransitions
  intro s hf
  refine ⟨step_of_idle_without_cmd hf, fun w hp => ⟨fun e hd => step_of_idle_illegal hf hp hd,
    fun hd => step_of_idle_command hf hp hd (exec_verify_of_idle hf), fun hv i hd hne => ?unarmed, fun hv => ?armed⟩⟩
  case unarmed =>
    obtain ⟨hguard, -⟩ := guardAnswersNotVerified s hf hv
    exact step_of_idle_command hf hp hd (hguard i ((decode_cmd_cases hd).resolve_left hne))
  case armed =>
    obtain ⟨hkeyaction, hpress, hrelease, hreleaseall, hkbden⟩ := armedCommandsStartTheirRoundTrip s hf hv
    exact ⟨fun k a l hd => step_of_idle_command hf hp hd (hkeyaction k a l),
      fun k hd => step_of_idle_command hf hp hd (hpress k), fun k hd => step_of_idle_command hf hp hd (hrelease k),
      fun hd => step_of_idle_command hf hp hd hreleaseall, fun hd => step_of_idle_command hf hp hd hkbden⟩

/-- The words of the command port that no row of the decoder takes (30_encoding.md R82). -/
theorem decodeCmd_eq_none_iff (w : BitVec 16) : decodeCmd w = none ↔
    let op := (w.extractLsb' 12 4).toNat
    op = 0 ∨ 7 ≤ op ∨ w.getLsbD 11 = true ∨
    ((op = 3 ∨ op = 4) ∧ w.extractLsb' 8 3 ≠ 0#3) ∨
    ((op = 1 ∨ op = 5 ∨ op = 6) ∧ w.extractLsb' 0 11 ≠ 0#11) := by
  have hop (n : BitVec 4) : w.extractLsb' 12 4 = n ↔ (w.extractLsb' 12 4).toNat = n.toNat := BitVec.toNat_inj.symm
  have hoperands := extractLsb'_to_bit_eleven_eq_zero_iff w 0 11 rfl
  have hflags := extractLsb'_to_bit_eleven_eq_zero_iff w 8 3 rfl
  have hzero : w.extractLsb' 11 1 = 0#1 ↔ w.getLsbD 11 = false := by
    simpa using extractLsb'_to_bit_eleven_eq_zero_iff w 11 0 rfl
  simp only [decodeCmd, hop, hoperands, hflags, hzero]
  cases w.getLsbD 11 <;> grind

/-- Settles O13. -/
theorem illegalWordsAreAnsweredIllegalCmd : Obligations.IllegalWordsAreAnsweredIllegalCmd := by
  unfold Obligations.IllegalWordsAreAnsweredIllegalCmd
  intro w
  refine ⟨?illegal, fun s hf hp hd => step_of_idle_illegal hf hp hd⟩
  case illegal =>
    rw [← decodeCmd_eq_none_iff]
    cases h : decodeCmd w <;> simp [decode, h]

/-! ## The rows of the bus states -/

/-- Settles O30. -/
theorem identityReadTransitions : Obligations.IdentityReadTransitions := by
  unfold Obligations.IdentityReadTransitions
  intro s hp
  refine ⟨fun hf => ⟨fun b hb => ?byte, fun b hb => ?error, fun hb => ?waiting⟩, fun hf => ?backoff⟩
  case byte => rw [step_of_read hp (.inl hf), exec_busread_of_byte hb, advanceOutcome]
  case error => rw [step_of_read hp (.inl hf), exec_busread_of_error hb, advanceOutcome]
  case waiting => rw [step_of_read hp (.inl hf), exec_busread_of_waiting hb, advanceOutcome]
  case backoff => rw [step_of_backoff hp (by rw [hf]; rfl), State.delayStep, State.delayOver, hf]

/-- Settles O31. -/
theorem roundTripTransitions : Obligations.RoundTripTransitions := by
  unfold Obligations.RoundTripTransitions
  intro s hp
  refine ⟨fun hf => ?writeKey, fun hf => ?backoff, fun hf => ?writeAction,
    fun hf => ⟨fun b hb => ?byte, fun b hb => ?error, fun hb => ?waiting⟩⟩
  case writeKey => rw [step_of_writeKey hp hf, exec_buswrite, advanceOutcome]
  case backoff => rw [step_of_backoff hp (by rw [hf]; rfl), State.delayStep, State.delayOver, hf]
  case writeAction => rw [step_of_writeAction hp hf, exec_buswrite, advanceOutcome]
  case byte => rw [step_of_read hp (.inr hf), exec_busread_of_byte hb, State.readResult_kaRc_some hf, advanceOutcome]
  case error => rw [step_of_read hp (.inr hf), exec_busread_of_error hb, State.readResult_kaRc_none hf, advanceOutcome]
  case waiting => rw [step_of_read hp (.inr hf), exec_busread_of_waiting hb, advanceOutcome]

/-! ## `KA_VAL` on a finite store -/

theorem State.pressedAtCap_iff (s : State) :
    s.pressedAtCap = true ↔ ∃ cap, s.params.pressedCap = some cap ∧ cap ≤ s.pressed.length := by
  unfold State.pressedAtCap
  cases s.params.pressedCap <;> simp

theorem State.validateStep_of_full {s : State} (hok : s.verdict.ok = true) (hpress : s.act = .press)
    (hfull : s.pressedAtCap = true) : s.validateStep = .refused .pressedFull := by
  rw [State.validateStep_of_valid hok]
  exact if_pos ⟨hpress, hfull⟩

/-- Settles O33. -/
theorem pressOnAFullStoreIsRefused : Obligations.PressOnAFullStoreIsRefused := by
  unfold Obligations.PressOnAFullStoreIsRefused
  intro s hf hp hpress hok
  constructor
  · intro hfull
    rw [step_of_kaVal hp hf, State.validateStep_of_full hok hpress (s.pressedAtCap_iff.mpr hfull), advanceOutcome]
  · intro hroom
    have hroom : ¬ (s.act = .press ∧ s.pressedAtCap = true) := by
      rintro ⟨-, hfull⟩
      obtain ⟨cap, hcap, hle⟩ := s.pressedAtCap_iff.mp hfull
      exact absurd (hroom cap hcap) (by omega)
    obtain ⟨-, -, hcommit⟩ := validationTransition s hf hp
    refine ⟨_, hcommit hok hroom, ?_⟩
    rw [State.advance_pressed]
    simp only [hpress]

/-! ## The rows of `RT_END`, `AT_BK` and `RESP` -/

theorem State.retryRoundTrip_again {s : State} (giveUp : State → State) (h : s.att.toNat + 1 < 10) :
    s.retryRoundTrip giveUp = { s with att := s.att + 1#4, fsm := .atBk, delay := s.params.backoffAttempt } :=
  if_pos h

theorem State.retryRoundTrip_giveUp {s : State} (giveUp : State → State) (h : 10 ≤ s.att.toNat + 1) :
    s.retryRoundTrip giveUp = giveUp { s with att := 10#4 } :=
  if_neg (Nat.not_lt.mpr h)

theorem State.probeSucceeded_iff (s : State) : s.probeSucceeded = true ↔
    s.rt.completed = true ∧ (s.rt.ok = true ∨ s.params.probeSuccess = .completed) := by
  simp [State.probeSucceeded]

theorem State.endSingle_of_completed {s : State} (hc : s.rt.completed = true) :
    s.endSingle = s.answered ⟨false, .done, false, s.rt.ok, s.rt.err, s.conf⟩ :=
  if_pos hc

theorem State.endSingle_of_aborted {s : State} (hc : s.rt.completed = false) :
    s.endSingle = s.answered ⟨false, .transportAborted, false, false, 0#3, 0#8⟩ :=
  if_neg (Bool.eq_false_iff.mp hc)

theorem State.endLoop_of_completed {s : State} (flag : Bool) (hc : s.rt.completed = true) :
    s.endLoop flag = s.answered ⟨false, .done, flag, s.rt.ok, s.rt.err, s.conf⟩ :=
  if_pos hc

theorem State.endLoop_of_aborted {s : State} (flag : Bool) (hc : s.rt.completed = false) :
    s.endLoop flag = s.retryRoundTrip fun t => t.answered ⟨false, .done, false, false, 0#3, 0#8⟩ :=
  if_neg (Bool.eq_false_iff.mp hc)

theorem State.endProbe_of_succeeded {s : State} (h : s.probeSucceeded = true) :
    s.endProbe = s.answered ⟨false, .done, true, s.rt.ok, s.rt.err, s.conf⟩ :=
  if_pos h

theorem State.endProbe_of_failed {s : State} (h : s.probeSucceeded = false) :
    s.endProbe = s.retryRoundTrip State.unverify :=
  if_neg (Bool.eq_false_iff.mp h)

theorem State.roundTripEnd_of_single {s : State} (hop : s.op = .keyaction ∨ s.op = .press ∨ s.op = .release) :
    s.roundTripEnd = .next s.endSingle := by
  rcases hop with hop | hop | hop <;> rw [State.roundTripEnd, hop]

theorem State.roundTripEnd_of_loop {s : State} {flag : Bool}
    (hop : (s.op = .releaseall ∧ flag = true) ∨ (s.op = .kbden ∧ flag = s.switchEnabled)) :
    s.roundTripEnd = .next (s.endLoop flag) := by
  rcases hop with ⟨hop, rfl⟩ | ⟨hop, rfl⟩ <;> rw [State.roundTripEnd, hop]

theorem State.roundTripEnd_of_verify {s : State} (hop : s.op = .verify) : s.roundTripEnd = .next s.endProbe := by
  rw [State.roundTripEnd, hop]

/-- Settles O34. -/
theorem roundTripEndTransitions : Obligations.RoundTripEndTransitions := by
  unfold Obligations.RoundTripEndTransitions
  intro s hp finished waiting gaveUp
  refine ⟨fun hf => ⟨fun hop => ⟨fun hc => ?single, fun hc => ?singleAborted⟩,
    fun flag hop => ⟨fun hc => ?loop, fun hc hlt => ?loopAgain, fun hc heq => ?loopGiveUp⟩,
    fun hop => ⟨fun hs => ?probe, fun hs hlt => ?probeAgain, fun hs heq => ?probeGiveUp⟩⟩, fun hf => ?backoff⟩
  case single =>
    rw [step_of_rtEnd hp hf, State.roundTripEnd_of_single hop, State.endSingle_of_completed hc, advanceOutcome]
  case singleAborted =>
    rw [step_of_rtEnd hp hf, State.roundTripEnd_of_single hop, State.endSingle_of_aborted hc, advanceOutcome]
  case loop =>
    rw [step_of_rtEnd hp hf, State.roundTripEnd_of_loop hop, State.endLoop_of_completed flag hc, advanceOutcome]
  case loopAgain =>
    rw [step_of_rtEnd hp hf, State.roundTripEnd_of_loop hop, State.endLoop_of_aborted flag hc,
      State.retryRoundTrip_again _ hlt, advanceOutcome]
  case loopGiveUp =>
    rw [step_of_rtEnd hp hf, State.roundTripEnd_of_loop hop, State.endLoop_of_aborted flag hc,
      State.retryRoundTrip_giveUp _ heq.ge, advanceOutcome]
  case probe =>
    rw [step_of_rtEnd hp hf, State.roundTripEnd_of_verify hop,
      State.endProbe_of_succeeded (s.probeSucceeded_iff.mpr hs), advanceOutcome]
  case probeAgain =>
    rw [step_of_rtEnd hp hf, State.roundTripEnd_of_verify hop,
      State.endProbe_of_failed (Bool.eq_false_iff.mpr (s.probeSucceeded_iff.not.mpr hs)),
      State.retryRoundTrip_again _ hlt, advanceOutcome]
  case probeGiveUp =>
    rw [step_of_rtEnd hp hf, State.roundTripEnd_of_verify hop,
      State.endProbe_of_failed (Bool.eq_false_iff.mpr (s.probeSucceeded_iff.not.mpr hs)),
      State.retryRoundTrip_giveUp _ heq.ge, advanceOutcome]
    rfl
  case backoff =>
    rw [step_of_backoff hp (by rw [hf]; rfl), State.delayStep, State.delayOver, hf]
    rfl

theorem step_of_resp_eq_next {s : State} (hp : s.port.engineActs = true) (hf : s.fsm = .resp) :
    step s = .next { s with rsp := { s.rsp with valid := true }, fsm := .idle }.advance := by
  rw [step_of_resp hp hf, exec_rsp_of_resp hf, advanceOutcome]

/-- Settles O35. -/
theorem responseReturnsToIdle : Obligations.ResponseReturnsToIdle := by
  unfold Obligations.ResponseReturnsToIdle
  intro s hf hp
  have hstep := step_of_resp_eq_next hp hf
  refine ⟨hstep, fun t ht => ?_⟩
  obtain rfl : _ = t := Host.Outcome.next.inj (hstep.symm.trans ht)
  exact ⟨State.cmdReady_of_idle (State.advance_fsm _), State.tReq_of_idle (State.advance_fsm _)⟩

end Sys2Proof.Machine
end

