-- ==== Sys2Proof/Proofs/Invariant.lean ====
section
/-! PROOF. Every step keeps the invariant, and under it no step faults (10_state.md section 2, 60_exceptions.md section 2). The
invariant is taken apart into what holds in every sequencer state (`Steady`) and what a round trip keeps on top of it
(`Travelling`); a state that meets these meets the invariant at rest, in the identity read, or in a round trip. -/

namespace Sys2Proof.Machine

/-! ## The parts of the invariant -/

/-- The clauses of the invariant that do not speak of the sequencer state. -/
def State.Steady (s : State) : Prop :=
  s.AddressHeld ∧ s.att.toNat ≤ 10 ∧ s.OutcomeConsistent ∧
  WellFormed.response s.rsp.status s.rsp.flag s.rsp.ok s.rsp.err s.rsp.confirm = true ∧
  s.CodecCombinational ∧ s.PressedWithinCap

/-- What holds all along a round trip: armed, for a command, with its operands and the encoder's action byte, with an
attempt left in a bounded loop, and no response shown. -/
def State.Travelling (s : State) : Prop :=
  s.verified = true ∧ s.op.operandsFixed s.key s.act s.led = true ∧ s.abyte = encodeActionByte s.key s.act s.led ∧
  (s.op.hasLoop = true → s.att.toNat < 10) ∧ s.rsp.valid = false

theorem State.Inv.steady {s : State} (h : s.Inv) : s.Steady :=
  ⟨h.addressHeld, h.attemptsBounded.1, h.outcomeConsistent, h.responseConsistent.1, h.codecCombinational,
    h.pressedWithinCap⟩

theorem State.Inv.rsp_not_valid {s : State} (h : s.Inv) (hf : s.fsm ≠ .idle) : s.rsp.valid = false :=
  Bool.eq_false_iff.mpr (mt h.responseConsistent.2 hf)

theorem State.Inv.delay_eq_zero {s : State} (h : s.Inv) (hf : s.fsm.isBackoff = false) : s.delay = 0 := h.delayIdle hf

theorem State.Inv.travelling {s : State} (h : s.Inv) (hf : s.fsm.inRoundTrip = true) : s.Travelling := by
  obtain ⟨hverified, hoperands⟩ := h.roundTripArmed hf
  have hbusy : s.fsm ≠ .idle := by rintro hidle; simp [hidle, Fsm.inRoundTrip] at hf
  exact ⟨hverified, hoperands, h.actionByteEncoded hf, fun hloop => h.attemptsBounded.2 (.inr (.inr ⟨hf, hloop⟩)),
    h.rsp_not_valid hbusy⟩

/-- At rest, in `IDLE` and `RESP`, the steady clauses are all there is. -/
theorem State.Inv.of_rest {s : State} (h : s.Steady) (hf : s.fsm = .idle ∨ s.fsm = .resp) (hdelay : s.delay = 0)
    (hvalid : s.rsp.valid = true → s.fsm = .idle) : s.Inv := by
  obtain ⟨haddress, hatt, houtcome, hresponse, hcodec, hpressed⟩ := h
  exact {
    addressHeld := haddress
    attemptsBounded := ⟨hatt, by rcases hf with hf | hf <;> simp [hf, Fsm.inRoundTrip]⟩
    opMatchesFsm := by rcases hf with hf | hf <;> simp [State.OpMatchesFsm, hf]
    roundTripArmed := by rcases hf with hf | hf <;> simp [State.RoundTripArmed, hf, Fsm.inRoundTrip]
    actionByteEncoded := by rcases hf with hf | hf <;> simp [State.ActionByteEncoded, hf, Fsm.inRoundTrip]
    outcomeConsistent := houtcome
    responseConsistent := ⟨hresponse, hvalid⟩
    delayIdle := fun _ => hdelay
    codecCombinational := hcodec
    pressedWithinCap := hpressed }

/-- The identity read loop belongs to VERIFY and has an attempt left. -/
theorem State.Inv.of_identityRead {s : State} (h : s.Steady) (hf : s.fsm = .vRd ∨ s.fsm = .vBk) (hop : s.op = .verify)
    (hatt : s.att.toNat < 10) (hvalid : s.rsp.valid = false) (hdelay : s.fsm = .vRd → s.delay = 0) : s.Inv := by
  obtain ⟨haddress, -, houtcome, hresponse, hcodec, hpressed⟩ := h
  exact {
    addressHeld := haddress
    attemptsBounded := ⟨hatt.le, fun _ => hatt⟩
    opMatchesFsm := ⟨fun _ => hop, by rcases hf with hf | hf <;> simp [hf]⟩
    roundTripArmed := by rcases hf with hf | hf <;> simp [State.RoundTripArmed, hf, Fsm.inRoundTrip]
    actionByteEncoded := by rcases hf with hf | hf <;> simp [State.ActionByteEncoded, hf, Fsm.inRoundTrip]
    outcomeConsistent := houtcome
    responseConsistent := ⟨hresponse, by simp [hvalid]⟩
    delayIdle := by
      intro hbackoff
      refine hdelay (hf.resolve_right fun hf => ?_)
      simp [hf, Fsm.isBackoff] at hbackoff
    codecCombinational := hcodec
    pressedWithinCap := hpressed }

/-- A round trip, its end and the wait before another one. -/
theorem State.Inv.of_roundTrip {s : State} (h : s.Steady) (ht : s.Travelling) (hf : s.fsm.inRoundTrip = true)
    (hloop : s.fsm = .atBk → s.op.hasLoop = true) (hdelay : s.fsm.isBackoff = false → s.delay = 0) : s.Inv := by
  obtain ⟨haddress, hatt, houtcome, hresponse, hcodec, hpressed⟩ := h
  obtain ⟨hverified, hoperands, habyte, hlt, hvalid⟩ := ht
  have hread : ¬ (s.fsm = .vRd ∨ s.fsm = .vBk) := by rintro (hr | hr) <;> simp [hr, Fsm.inRoundTrip] at hf
  exact {
    addressHeld := haddress
    attemptsBounded := ⟨hatt, by
      rintro (hr | hr | ⟨-, hop⟩)
      · exact absurd (.inl hr) hread
      · exact absurd (.inr hr) hread
      · exact hlt hop⟩
    opMatchesFsm := ⟨fun hr => absurd hr hread, hloop⟩
    roundTripArmed := fun _ => ⟨hverified, hoperands⟩
    actionByteEncoded := fun _ => habyte
    outcomeConsistent := houtcome
    responseConsistent := ⟨hresponse, by simp [hvalid]⟩
    delayIdle := hdelay
    codecCombinational := hcodec
    pressedWithinCap := hpressed }

/-! ## The shared operations -/

/-- A response that keeps the field rules of 30_encoding.md R84. -/
def Response.Proper (r : Response) : Prop :=
  r.valid = false ∧ WellFormed.response r.status r.flag r.ok r.err r.confirm = true

theorem Response.proper_status (status : Status) : Response.Proper ⟨false, status, false, false, 0#3, 0#8⟩ :=
  ⟨rfl, by cases status <;> rfl⟩

/-- The outcome of a completed round trip may be answered: without `ok` there is an error bit (R128). -/
theorem Response.proper_of_outcome {rt : RoundTrip} (hok : rt.ok = true ↔ rt.err = 0#3) (flag : Bool) (confirm : Byte) :
    Response.Proper ⟨false, .done, flag, rt.ok, rt.err, confirm⟩ := by
  refine ⟨rfl, ?_⟩
  cases hb : rt.ok <;> simp_all [WellFormed.response]

/-- `respond` leads to a state at rest, from wherever nothing is left to wait. -/
theorem State.inv_answered {s : State} {r : Response} (h : s.Steady) (hdelay : s.delay = 0) (hr : r.Proper) :
    (s.answered r).Inv := by
  obtain ⟨haddress, hatt, houtcome, -, hcodec, hpressed⟩ := h
  refine .of_rest ⟨haddress, hatt, houtcome, hr.2, hcodec, hpressed⟩ (.inr rfl) hdelay ?_
  intro hvalid
  exact absurd hr.1 (by rw [show r.valid = true from hvalid]; decide)

/-- An armed command starts a round trip that travels. -/
theorem State.inv_started {s : State} {op : Op} {key : Byte} {action : ActionKind} {led : Bool} (h : s.Steady)
    (hdelay : s.delay = 0) (hverified : s.verified = true) (hoperands : op.operandsFixed key action led = true)
    (hatt : op.hasLoop = true → s.att.toNat < 10) : (s.started op key action led).Inv :=
  .of_roundTrip h ⟨hverified, hoperands, rfl, hatt, rfl⟩ rfl (by rintro ⟨⟩) fun _ => hdelay

theorem toNat_succ_of_lt_ten {att : BitVec 4} (h : att.toNat + 1 < 10) : (att + 1#4).toNat = att.toNat + 1 := by
  bv_omega

/-! ## The steps -/

theorem State.inv_hardReset {s : State} (h : s.Inv) : s.hardReset.Inv :=
  .of_rest ⟨rfl, Nat.zero_le 10, ⟨rfl, rfl⟩, rfl, h.codecCombinational, fun _ _ => Nat.zero_le _⟩ (.inl rfl) rfl
    (fun _ => rfl)

theorem State.inv_writeResult {s : State} (h : s.Inv) (hf : s.fsm = .kaWk ∨ s.fsm = .kaWa) (addr : Addr)
    (data : Byte) : (s.writeResult addr data).Inv := by
  have hsteady := h.steady
  have htravelling := h.travelling (by rcases hf with hf | hf <;> rw [hf] <;> rfl)
  have hdelay := h.delay_eq_zero (by rcases hf with hf | hf <;> rw [hf] <;> rfl)
  obtain ⟨haddress, hatt, -, hresponse, hcodec, hpressed⟩ := hsteady
  unfold State.writeResult
  split
  next err _ _ =>
    rcases hf with hf | hf <;> cases err <;> simp only [hf]
    · exact .of_roundTrip h.steady htravelling rfl (by rintro ⟨⟩) fun _ => hdelay
    · exact .of_roundTrip h.steady htravelling rfl (by rintro ⟨⟩) (by rintro ⟨⟩)
    · exact .of_roundTrip h.steady htravelling rfl (by rintro ⟨⟩) fun _ => hdelay
    · exact .of_roundTrip ⟨haddress, hatt, ⟨rfl, rfl⟩, hresponse, hcodec, hpressed⟩ htravelling rfl (by rintro ⟨⟩)
        fun _ => hdelay
  next => exact h

/-- An identity read is judged, or its failure counted (R136). -/
theorem State.inv_readResult_of_vRd {s : State} (h : s.Inv) (hf : s.fsm = .vRd) (addr : Addr) (answer : Option Byte) :
    (s.readResult addr answer).Inv := by
  have hop := h.opMatchesFsm.1 (.inl hf)
  have hdelay := h.delay_eq_zero (by rw [hf]; rfl)
  have hvalid := h.rsp_not_valid (by simp [hf])
  have hsteady := h.steady
  obtain ⟨haddress, hatt, houtcome, hresponse, hcodec, hpressed⟩ := hsteady
  cases answer with
  | some b =>
    simp only [State.readResult, hf]
    split
    · refine .of_roundTrip ⟨haddress, Nat.zero_le 10, houtcome, hresponse, hcodec, hpressed⟩
        ⟨rfl, ?operands, rfl, fun _ => Nat.succ_pos 9, hvalid⟩ rfl (by rintro ⟨⟩) fun _ => hdelay
      simp [hop, Op.operandsFixed]
    · exact State.inv_answered (s := { s with bus := _, conf := b, verified := false }) h.steady hdelay
        (Response.proper_status .done)
  | none =>
    simp only [State.readResult, hf]
    split
    next hlt =>
      have hsucc := toNat_succ_of_lt_ten hlt
      refine .of_identityRead ⟨haddress, ?_, houtcome, hresponse, hcodec, hpressed⟩ (.inr rfl) hop ?_ hvalid
        (by rintro ⟨⟩)
      all_goals
        simp only [hsucc]
        omega
    next =>
      exact State.inv_answered (s := { s with bus := _, att := 10#4, verified := false })
        ⟨haddress, Nat.le_refl 10, houtcome, hresponse, hcodec, hpressed⟩ hdelay (Response.proper_status .done)

theorem State.inv_readResult_of_kaRc {s : State} (h : s.Inv) (hf : s.fsm = .kaRc) (addr : Addr)
    (answer : Option Byte) : (s.readResult addr answer).Inv := by
  have htravelling := h.travelling (by rw [hf]; rfl)
  have hdelay := h.delay_eq_zero (by rw [hf]; rfl)
  obtain ⟨haddress, hatt, -, hresponse, hcodec, hpressed⟩ := h.steady
  cases answer with
  | some b =>
    rw [State.readResult_kaRc_some hf]
    exact .of_roundTrip h.steady htravelling rfl (by rintro ⟨⟩) fun _ => hdelay
  | none =>
    rw [State.readResult_kaRc_none hf]
    exact .of_roundTrip ⟨haddress, hatt, ⟨rfl, rfl⟩, hresponse, hcodec, hpressed⟩ htravelling rfl (by rintro ⟨⟩)
      fun _ => hdelay

theorem State.inv_busRead {s : State} (h : s.Inv) (hf : s.fsm = .vRd ∨ s.fsm = .kaRc) (addr : Addr) :
    (s.busRead addr).Inv := by
  have hanswered (answer : Option Byte) : (s.readAnswered addr answer).Inv := by
    rw [State.readAnswered_eq_readResult]
    rcases hf with hf | hf
    · exact State.inv_readResult_of_vRd h hf addr answer
    · exact State.inv_readResult_of_kaRc h hf addr answer
  unfold State.busRead
  split
  · exact hanswered none
  · exact hanswered _
  · exact h

/-- A backoff counts down, and ends in its read, its write or another round trip (R191). -/
theorem State.inv_delayStep {s : State} (h : s.Inv) (hf : s.fsm.isBackoff = true) : s.delayStep.Inv := by
  unfold State.delayStep
  split
  next hdelay =>
    cases hfsm : s.fsm <;> simp only [hfsm, Fsm.isBackoff, reduceCtorEq] at hf <;> simp only [State.delayOver, hfsm]
    case vBk =>
      exact .of_identityRead h.steady (.inl rfl) (h.opMatchesFsm.1 (.inr hfsm))
        (h.attemptsBounded.2 (.inr (.inl hfsm))) (h.rsp_not_valid (by simp [hfsm])) fun _ => hdelay
    case kaKb =>
      exact .of_roundTrip h.steady (h.travelling (by rw [hfsm]; rfl)) rfl (by rintro ⟨⟩) fun _ => hdelay
    case atBk =>
      obtain ⟨hverified, hoperands, -, hlt, hvalid⟩ := h.travelling (by rw [hfsm]; rfl)
      exact .of_roundTrip h.steady ⟨hverified, hoperands, rfl, hlt, hvalid⟩ rfl (by rintro ⟨⟩) fun _ => hdelay
  next =>
    have hbackoff (hno : s.fsm.isBackoff = false) : s.delay - 1 = 0 := by simp [hf] at hno
    exact { h with delayIdle := hbackoff }

theorem validateConfirmation_ok_iff_err (key actionByte confirm : Byte) :
    (validateConfirmation key actionByte confirm).ok = true ↔ (validateConfirmation key actionByte confirm).err = 0#3 :=
  beq_iff_eq

/-- A commit that is made leaves `pressed` within a finite capacity (10_state.md R26). -/
theorem State.commitPressed_within_cap {s : State} (h : s.PressedWithinCap)
    (hroom : ¬ (s.act = .press ∧ s.pressedAtCap = true)) :
    ∀ cap ∈ s.params.pressedCap, (commitPressed s.pressed s.act s.key).length ≤ cap := by
  intro cap hcap
  have hle := h cap hcap
  cases hact : s.act with
  | test => exact hle
  | press =>
    have hlt : ¬ cap ≤ s.pressed.length := fun hge => hroom ⟨hact, s.pressedAtCap_iff.mpr ⟨cap, hcap, hge⟩⟩
    simp only [commitPressed, List.length_append, List.length_singleton]
    omega
  | release =>
    have hshorter : (removeFirst s.pressed s.key).length ≤ s.pressed.length := by
      rw [removeFirst_eq_erase]
      exact List.length_erase_le
    exact hshorter.trans hle
  | releaseAll => exact Nat.zero_le cap

theorem State.inv_validateStep {s u : State} (h : s.Inv) (hf : s.fsm = .kaVal) (hu : s.validateStep = .next u) :
    u.Inv := by
  have htravelling := h.travelling (by rw [hf]; rfl)
  have hdelay := h.delay_eq_zero (by rw [hf]; rfl)
  obtain ⟨haddress, hatt, -, hresponse, hcodec, hpressed⟩ := h.steady
  have houtcome : s.judged.OutcomeConsistent := validateConfirmation_ok_iff_err s.key s.abyte s.conf
  cases hok : s.verdict.ok with
  | false =>
    rw [State.validateStep_of_invalid hok] at hu
    cases hu
    exact .of_roundTrip ⟨haddress, hatt, houtcome, hresponse, hcodec, hpressed⟩ htravelling rfl (by rintro ⟨⟩)
      fun _ => hdelay
  | true =>
    rw [State.validateStep_of_valid hok] at hu
    obtain ⟨hroom, rfl⟩ := State.commit_next hu
    exact .of_roundTrip ⟨haddress, hatt, houtcome, hresponse, hcodec, State.commitPressed_within_cap hpressed hroom⟩
      htravelling rfl (by rintro ⟨⟩) fun _ => hdelay

/-- Another attempt of a bounded loop, or its end (R140). -/
theorem State.inv_retryRoundTrip {s : State} {giveUp : State → State} (h : s.Inv) (hf : s.fsm = .rtEnd)
    (hloop : s.op.hasLoop = true)
    (hgiveUp : ∀ t : State, t.Steady → t.delay = 0 → (giveUp t).Inv) : (s.retryRoundTrip giveUp).Inv := by
  obtain ⟨hverified, hoperands, habyte, -, hvalid⟩ := h.travelling (by rw [hf]; rfl)
  obtain ⟨haddress, hatt, houtcome, hresponse, hcodec, hpressed⟩ := h.steady
  by_cases hlt : s.att.toNat + 1 < 10
  · have hsucc := toNat_succ_of_lt_ten hlt
    rw [State.retryRoundTrip_again giveUp hlt]
    refine .of_roundTrip ⟨haddress, ?_, houtcome, hresponse, hcodec, hpressed⟩
      ⟨hverified, hoperands, habyte, fun _ => ?_, hvalid⟩ rfl (fun _ => hloop) (by rintro ⟨⟩)
    all_goals
      simp only [hsucc]
      omega
  · rw [State.retryRoundTrip_giveUp giveUp (by omega)]
    exact hgiveUp _ ⟨haddress, Nat.le_refl 10, houtcome, hresponse, hcodec, hpressed⟩ (h.delay_eq_zero (by rw [hf]; rfl))

theorem State.Inv.outcome_of_completed {s : State} (h : s.Inv) (hc : s.rt.completed = true) :
    s.rt.ok = true ↔ s.rt.err = 0#3 := by
  have houtcome := h.outcomeConsistent
  rwa [State.OutcomeConsistent, if_pos hc] at houtcome

theorem State.inv_endSingle {s : State} (h : s.Inv) (hdelay : s.delay = 0) : s.endSingle.Inv := by
  cases hc : s.rt.completed with
  | true =>
    rw [State.endSingle_of_completed hc]
    exact State.inv_answered h.steady hdelay (Response.proper_of_outcome (h.outcome_of_completed hc) false s.conf)
  | false =>
    rw [State.endSingle_of_aborted hc]
    exact State.inv_answered h.steady hdelay (Response.proper_status .transportAborted)

theorem State.inv_endLoop {s : State} (h : s.Inv) (hf : s.fsm = .rtEnd) (hloop : s.op.hasLoop = true) (flag : Bool) :
    (s.endLoop flag).Inv := by
  cases hc : s.rt.completed with
  | true =>
    rw [State.endLoop_of_completed flag hc]
    exact State.inv_answered h.steady (h.delay_eq_zero (by rw [hf]; rfl))
      (Response.proper_of_outcome (h.outcome_of_completed hc) flag s.conf)
  | false =>
    rw [State.endLoop_of_aborted flag hc]
    exact State.inv_retryRoundTrip h hf hloop fun t ht hdelay =>
      State.inv_answered ht hdelay (Response.proper_status .done)

theorem State.inv_endProbe {s : State} (h : s.Inv) (hf : s.fsm = .rtEnd) (hop : s.op = .verify) : s.endProbe.Inv := by
  cases hs : s.probeSucceeded with
  | true =>
    obtain ⟨hc, -⟩ := s.probeSucceeded_iff.mp hs
    rw [State.endProbe_of_succeeded hs]
    exact State.inv_answered h.steady (h.delay_eq_zero (by rw [hf]; rfl))
      (Response.proper_of_outcome (h.outcome_of_completed hc) true s.conf)
  | false =>
    rw [State.endProbe_of_failed hs]
    exact State.inv_retryRoundTrip h hf (by rw [hop]; rfl) fun t ht hdelay =>
      State.inv_answered (s := { t with verified := false }) ht hdelay (Response.proper_status .done)

theorem State.inv_roundTripEnd {s u : State} (h : s.Inv) (hf : s.fsm = .rtEnd) (hu : s.roundTripEnd = .next u) :
    u.Inv := by
  have hdelay := h.delay_eq_zero (by rw [hf]; rfl)
  unfold State.roundTripEnd at hu
  split at hu <;> cases hu
  next hop => exact State.inv_endProbe h hf hop
  next => exact State.inv_endSingle h hdelay
  next => exact State.inv_endSingle h hdelay
  next => exact State.inv_endSingle h hdelay
  next hop => exact State.inv_endLoop h hf (by rw [hop]; rfl) true
  next hop => exact State.inv_endLoop h hf (by rw [hop]; rfl) s.switchEnabled

/-- Every row of the step machine keeps the invariant. -/
theorem StepTo.inv {s u : State} (hto : StepTo s u) (h : s.Inv) : u.Inv := by
  have hrest (hf : s.fsm = .idle) : s.delay = 0 := h.delay_eq_zero (by rw [hf]; rfl)
  obtain ⟨haddress, -, houtcome, hresponse, hcodec, hpressed⟩ := h.steady
  have hfresh : { s with att := 0#4 }.Steady := ⟨haddress, Nat.zero_le 10, houtcome, hresponse, hcodec, hpressed⟩
  cases hto with
  | reset => exact State.inv_hardReset h
  | encode v k a l => exact { h with codecCombinational := ⟨⟨rfl, rfl⟩, h.codecCombinational.2⟩ }
  | validate v k ab c => exact { h with codecCombinational := ⟨h.codecCombinational.1, rfl⟩ }
  | idle => exact h
  | illegal _ hf => exact State.inv_answered h.steady (hrest hf) (Response.proper_status .illegalCmd)
  | notVerified _ hf => exact State.inv_answered h.steady (hrest hf) (Response.proper_status .notVerified)
  | verify _ hf => exact .of_identityRead hfresh (.inl rfl) rfl (Nat.succ_pos 9) rfl fun _ => hrest hf
  | single op k a l _ hf hv hop hsingle =>
    exact State.inv_started h.steady (hrest hf) hv hop (by simp [hsingle])
  | loop op k a l _ hf hv hop => exact State.inv_started hfresh (hrest hf) hv hop fun _ => Nat.succ_pos 9
  | read _ hf => exact State.inv_busRead h hf s.address
  | writeKey _ hf =>
    rw [State.busWrite_eq_writeResult]
    exact State.inv_writeResult h (.inl hf) s.address s.key
  | writeAction _ hf =>
    rw [State.busWrite_eq_writeResult]
    exact State.inv_writeResult h (.inr hf) s.address s.abyte
  | delay _ hf => exact State.inv_delayStep h hf
  | judge _ _ hf hu => exact State.inv_validateStep h hf hu
  | decide _ _ hf hu => exact State.inv_roundTripEnd h hf hu
  | present _ hf => exact .of_rest h.steady (.inl rfl) (h.delay_eq_zero (by rw [hf]; rfl)) fun _ => rfl

/-- The invariant does not speak of the input ports. -/
theorem State.Inv.advance {s : State} (h : s.Inv) : s.advance.Inv := by
  unfold State.advance
  split <;> exact { h with }

/-- Settles O39: every way a step goes on keeps the invariant, and the move of the input ports keeps it too. -/
theorem stepKeepsTheInvariant : Obligations.StepKeepsTheInvariant := by
  unfold Obligations.StepKeepsTheInvariant
  intro s t h hstep
  obtain ⟨u, hto, rfl⟩ := step_cases hstep
  exact (hto.inv h).advance

/-- Settles O38. -/
theorem invariantHoldsAtReset : Obligations.InvariantHoldsAtReset := by
  unfold Obligations.InvariantHoldsAtReset
  exact .of_rest ⟨rfl, by decide, by decide, by decide, ⟨⟨rfl, rfl⟩, rfl⟩, fun _ _ => Nat.zero_le _⟩ (.inl rfl) rfl
    fun _ => rfl

/-- Settles O37. -/
theorem resetStateHoldsTheResetValues : Obligations.ResetStateHoldsTheResetValues := by
  unfold Obligations.ResetStateHoldsTheResetValues
  exact ⟨rfl, rfl, rfl, rfl, rfl, rfl, rfl, rfl, rfl, rfl, rfl, rfl, rfl, rfl, rfl, rfl, rfl⟩

/-! ## Progress -/

/-- Every word is answered: a legal one by its operation, another one as an illegal command. -/
theorem State.runWord_answers_next (s : State) (w : PortWord) : ∃ t, s.runWord w = .next t := by
  unfold State.runWord
  split
  · exact exec_answers_next _ s
  · exact ⟨_, rfl⟩

/-- The two actions that need not answer belong to one sequencer state each (R134). -/
theorem State.fsm_of_action (s : State) :
    (s.action = .validate → s.fsm = .kaVal) ∧ (s.action = .decide → s.fsm = .rtEnd) := by
  unfold State.action State.engineAction
  cases s.port <;> cases s.fsm <;> simp

/-- `KA_VAL` goes on but for the commit of a Press on a full finite store (93 U3). -/
theorem State.validateStep_answers (s : State) : (∃ t, s.validateStep = .next t) ∨
    (s.validateStep = .refused .pressedFull ∧ s.act = .press ∧ s.verdict.ok = true ∧ s.pressedAtCap = true) := by
  cases hok : s.verdict.ok with
  | false => exact .inl ⟨_, State.validateStep_of_invalid hok⟩
  | true =>
    by_cases hroom : s.act = .press ∧ s.pressedAtCap = true
    · exact .inr ⟨State.validateStep_of_full hok hroom.1 hroom.2, hroom.1, rfl, hroom.2⟩
    · exact .inl ⟨_, (State.validateStep_of_valid hok).trans (State.commit_of_room (s := s.judged) hroom _ _)⟩

/-- `RT_END` has a row for every command (R140). -/
theorem State.roundTripEnd_answers_next {s : State} (hop : s.op ≠ .none) : ∃ t, s.roundTripEnd = .next t := by
  unfold State.roundTripEnd
  split
  · contradiction
  all_goals exact ⟨_, rfl⟩

/-- Settles O40: a round trip belongs to a command, so `RT_END` has its row, and only the commit can be refused. -/
theorem noStepFaults : Obligations.NoStepFaults := by
  unfold Obligations.NoStepFaults
  intro s h
  have hnext (hanswer : ∃ t, s.runAction s.action = .next t) : ∃ t, step s = .next t := by
    obtain ⟨t, ht⟩ := hanswer
    exact ⟨_, step_of_action ht⟩
  cases ha : s.action with
  | reset | idle | delay => exact .inl (hnext ⟨_, by rw [ha]; rfl⟩)
  | word w =>
    obtain ⟨t, ht⟩ := s.runWord_answers_next w
    exact .inl (hnext ⟨t, by rw [ha]; exact ht⟩)
  | validate =>
    rcases s.validateStep_answers with ⟨t, ht⟩ | ⟨hrefused, hpress, hok, hfull⟩
    · exact .inl (hnext ⟨t, by rw [ha]; exact ht⟩)
    · refine .inr ⟨?_, s.fsm_of_action.1 ha, hpress, hok, s.pressedAtCap_iff.mp hfull⟩
      rw [step, ha, State.runAction, hrefused, advanceOutcome]
  | decide =>
    obtain ⟨-, hoperands, -⟩ := h.travelling (by rw [s.fsm_of_action.2 ha]; rfl)
    have hop : s.op ≠ .none := by
      intro hop
      simp [hop, Op.operandsFixed] at hoperands
    obtain ⟨t, ht⟩ := State.roundTripEnd_answers_next hop
    exact .inl (hnext ⟨t, by rw [ha]; exact ht⟩)

end Sys2Proof.Machine
end

