-- ==== Sys2Proof/Proofs/Frames.lean ====
section
/-! PROOF. What the steps leave unchanged: the mode, the address, the session after a failure, the bus, the command port while
the engine is busy (10_state.md section 2, 20_memory.md section 4, 60_exceptions.md sections 2 and 3). -/

namespace Sys2Proof.Machine

/-! ## The session -/

@[simp] theorem State.session_advance (s : State) : s.advance.session = s.session := by
  simp [State.session]

theorem State.session_writeResult (s : State) (addr : Addr) (data : Byte) :
    (s.writeResult addr data).session = s.session := by
  unfold State.writeResult
  split
  · split <;> rfl
  · rfl

theorem State.session_delayStep (s : State) : s.delayStep.session = s.session := by
  unfold State.delayStep State.delayOver
  split
  · split <;> rfl
  · rfl

theorem State.session_endSingle (s : State) : s.endSingle.session = s.session := by
  unfold State.endSingle
  split <;> rfl

theorem State.session_endLoop (s : State) (flag : Bool) : (s.endLoop flag).session = s.session := by
  unfold State.endLoop
  split
  · rfl
  · by_cases h : s.att.toNat + 1 < 10
    · rw [State.retryRoundTrip_again _ h]; rfl
    · rw [State.retryRoundTrip_giveUp _ (Nat.not_lt.mp h)]; rfl

/-- The confirmation read writes `conf` and the outcome registers only. -/
theorem State.session_busRead_of_kaRc {s : State} (hf : s.fsm = .kaRc) (addr : Addr) :
    (s.busRead addr).session = s.session := by
  unfold State.busRead
  split
  · rw [State.readAnswered_eq_readResult, State.readResult_kaRc_none hf]; rfl
  · rw [State.readAnswered_eq_readResult, State.readResult_kaRc_some hf]; rfl
  · rfl

/-- What VERIFY may do to the session: nothing, or disarm it with an answer `Done`, or arm it and start the probe. -/
def State.VerifyOutcome (s u : State) : Prop :=
  u.session = s.session ∨
  (u.session = { s.session with verified := false } ∧ u.fsm = .resp ∧ u.rsp.status = .done) ∨
  (u.session = { s.session with verified := true } ∧ u.fsm = .kaWk)

theorem State.verifyOutcome_readResult {s : State} (hf : s.fsm = .vRd) (addr : Addr) (answer : Option Byte) :
    s.VerifyOutcome (s.readResult addr answer) := by
  cases answer <;> simp only [State.readResult, hf] <;> split
  · exact .inl rfl
  · exact .inr (.inl ⟨rfl, rfl, rfl⟩)
  · exact .inr (.inr ⟨rfl, rfl⟩)
  · exact .inr (.inl ⟨rfl, rfl, rfl⟩)

theorem State.verifyOutcome_busRead {s : State} (hf : s.fsm = .vRd) (addr : Addr) :
    s.VerifyOutcome (s.busRead addr) := by
  unfold State.busRead
  split
  · rw [State.readAnswered_eq_readResult]; exact State.verifyOutcome_readResult hf addr _
  · rw [State.readAnswered_eq_readResult]; exact State.verifyOutcome_readResult hf addr _
  · exact .inl rfl

/-- The probe's end leaves the session, or disarms it. -/
theorem State.session_endProbe (s : State) : s.endProbe.session = s.session ∨
    (s.endProbe.session = { s.session with verified := false } ∧ s.endProbe.rsp.status = .done) := by
  unfold State.endProbe
  split
  · exact .inl rfl
  · by_cases h : s.att.toNat + 1 < 10
    · rw [State.retryRoundTrip_again _ h]; exact .inl rfl
    · rw [State.retryRoundTrip_giveUp _ (Nat.not_lt.mp h)]; exact .inr ⟨rfl, rfl⟩

/-- `KA_VAL` goes to `RT_END`, with address and mode as they were. -/
theorem State.frame_validateStep {s u : State} (h : s.validateStep = .next u) :
    u.fsm = .rtEnd ∧ u.address = s.address ∧ u.verified = s.verified ∧ u.bus = s.bus := by
  cases hok : s.verdict.ok with
  | false => rw [State.validateStep_of_invalid hok] at h; cases h; exact ⟨rfl, rfl, rfl, rfl⟩
  | true =>
    rw [State.validateStep_of_valid hok] at h
    obtain ⟨-, rfl⟩ := State.commit_next h
    exact ⟨rfl, rfl, rfl, rfl⟩

/-- The rows that may change the session, by what they may do to it; no other row changes it. -/
theorem StepTo.session_cases {s u : State} (h : StepTo s u) :
    u.session = s.session ∨ (s.port = .rst ∧ u = s.hardReset) ∨
    (s.fsm = .vRd ∧ s.VerifyOutcome u) ∨
    (s.fsm = .kaVal ∧ u.fsm = .rtEnd ∧ u.address = s.address ∧ u.verified = s.verified) ∨
    (s.fsm = .rtEnd ∧ s.op = .verify ∧ u.session = { s.session with verified := false } ∧ u.rsp.status = .done) := by
  cases h with
  | reset hp => exact .inr (.inl ⟨hp, rfl⟩)
  | encode | validate | idle | illegal | verify | notVerified | single | loop | present => exact .inl rfl
  | read _ hf =>
    rcases hf with hf | hf
    · exact .inr (.inr (.inl ⟨hf, State.verifyOutcome_busRead hf s.address⟩))
    · exact .inl (State.session_busRead_of_kaRc hf s.address)
  | writeKey | writeAction => rw [State.busWrite_eq_writeResult]; exact .inl (State.session_writeResult ..)
  | delay => exact .inl s.session_delayStep
  | judge _ _ hf hu =>
    obtain ⟨hfsm, haddress, hverified, -⟩ := State.frame_validateStep hu
    exact .inr (.inr (.inr (.inl ⟨hf, hfsm, haddress, hverified⟩)))
  | decide _ _ hf hu =>
    unfold State.roundTripEnd at hu
    split at hu <;> cases hu
    next hop =>
      rcases s.session_endProbe with hsame | ⟨hdisarmed, hdone⟩
      · exact .inl hsame
      · exact .inr (.inr (.inr (.inr ⟨hf, hop, hdisarmed, hdone⟩)))
    next => exact .inl s.session_endSingle
    next => exact .inl s.session_endSingle
    next => exact .inl s.session_endSingle
    next => exact .inl (s.session_endLoop true)
    next => exact .inl (s.session_endLoop s.switchEnabled)

theorem State.address_of_session {s u : State} (h : u.session = s.session) : u.address = s.address :=
  congrArg Session.address h

theorem State.verified_of_session {s u : State} (h : u.session = s.session) : u.verified = s.verified :=
  congrArg Session.verified h

/-- VERIFY leaves the address. -/
theorem State.VerifyOutcome.address_eq {s u : State} (h : s.VerifyOutcome u) : u.address = s.address := by
  rcases h with h | ⟨h, -⟩ | ⟨h, -⟩ <;> exact congrArg Session.address h

/-- Settles O42: of the rows that change the session only VERIFY's and reset change the mode, and only reset writes the
address, with `BUS_ADDR`. -/
theorem onlyVerifyChangesTheMode : Obligations.OnlyVerifyChangesTheMode := by
  unfold Obligations.OnlyVerifyChangesTheMode
  intro s t hstep
  obtain ⟨u, hto, rfl⟩ := step_cases hstep
  rw [State.advance_verified, State.advance_address]
  rcases hto.session_cases with hsame | ⟨hp, rfl⟩ | ⟨hf, houtcome⟩ | ⟨-, -, haddress, hverified⟩ |
    ⟨hf, hop, hdisarmed, -⟩
  · exact ⟨fun hne => absurd (State.verified_of_session hsame) hne, fun _ => State.address_of_session hsame⟩
  · exact ⟨fun _ => .inl hp, fun hheld => s.hardReset_address.trans hheld.symm⟩
  · exact ⟨fun _ => .inr (.inl hf), fun _ => houtcome.address_eq⟩
  · exact ⟨fun hne => absurd hverified hne, fun _ => haddress⟩
  · exact ⟨fun _ => .inr (.inr ⟨hf, hop, congrArg Session.verified hdisarmed⟩),
      fun _ => congrArg Session.address hdisarmed⟩

/-- Settles O43: the rows that change the session answer `Done` or do not answer, and `RESP` is none of them. -/
theorem failureResponsesLeaveTheSession : Obligations.FailureResponsesLeaveTheSession := by
  unfold Obligations.FailureResponsesLeaveTheSession
  intro s t hstep hrst
  obtain ⟨u, hto, rfl⟩ := step_cases hstep
  rw [State.session_advance, State.advance_fsm, State.advance_rsp]
  rcases hto.session_cases with hsame | ⟨hp, -⟩ | ⟨hf, houtcome⟩ | ⟨hf, hend, -⟩ | ⟨hf, -, -, hdone⟩
  · exact ⟨fun _ _ => hsame, fun _ => hsame⟩
  · exact absurd hp hrst
  · refine ⟨fun hresp hstatus => ?_, fun hresp => by simp [hf] at hresp⟩
    rcases houtcome with hsame | ⟨-, -, hdone⟩ | ⟨-, hstart⟩
    · exact hsame
    · exact absurd hdone hstatus
    · simp [hstart] at hresp
  · exact ⟨fun hresp => by simp [hend] at hresp, fun hresp => by simp [hf] at hresp⟩
  · exact ⟨fun _ hstatus => absurd hdone hstatus, fun hresp => by simp [hf] at hresp⟩

/-! ## The bus -/

theorem State.bus_writeResult (s : State) (addr : Addr) (data : Byte) :
    (s.writeResult addr data).bus = s.bus ∨
      ∃ err, (s.writeResult addr data).bus = s.bus ++ [BusEvent.write addr data err] := by
  unfold State.writeResult
  split
  next err _ _ => exact .inr ⟨err, by simp only []; split <;> rfl⟩
  next => exact .inl rfl

theorem State.bus_readResult (s : State) (addr : Addr) (answer : Option Byte) :
    (s.readResult addr answer).bus = s.bus ++ [BusEvent.read addr answer] := by
  unfold State.readResult
  split <;> try split
  all_goals rfl

theorem State.bus_busRead (s : State) (addr : Addr) :
    (s.busRead addr).bus = s.bus ∨ ∃ answer, (s.busRead addr).bus = s.bus ++ [BusEvent.read addr answer] := by
  unfold State.busRead
  split
  · rw [State.readAnswered_eq_readResult]; exact .inr ⟨_, s.bus_readResult ..⟩
  · rw [State.readAnswered_eq_readResult]; exact .inr ⟨_, s.bus_readResult ..⟩
  · exact .inl rfl

theorem State.bus_delayStep (s : State) : s.delayStep.bus = s.bus := by
  unfold State.delayStep State.delayOver
  split
  · split <;> rfl
  · rfl

theorem State.bus_retryRoundTrip {giveUp : State → State} (hgiveUp : ∀ t, (giveUp t).bus = t.bus) (s : State) :
    (s.retryRoundTrip giveUp).bus = s.bus := by
  by_cases h : s.att.toNat + 1 < 10
  · rw [State.retryRoundTrip_again _ h]
  · rw [State.retryRoundTrip_giveUp _ (Nat.not_lt.mp h), hgiveUp]

theorem State.bus_of_roundTripEnd {s u : State} (h : s.roundTripEnd = .next u) : u.bus = s.bus := by
  have hsingle : s.endSingle.bus = s.bus := by unfold State.endSingle; split <;> rfl
  have hloop (flag : Bool) : (s.endLoop flag).bus = s.bus := by
    unfold State.endLoop
    split
    · rfl
    · apply State.bus_retryRoundTrip
      exact fun _ => rfl
  have hprobe : s.endProbe.bus = s.bus := by
    unfold State.endProbe
    split
    · rfl
    · apply State.bus_retryRoundTrip
      exact fun _ => rfl
  unfold State.roundTripEnd at h
  split at h <;> cases h
  next => exact hprobe
  next => exact hsingle
  next => exact hsingle
  next => exact hsingle
  next => exact hloop true
  next => exact hloop s.switchEnabled

/-- Settles O44: only the rows of the four requesting states touch the transcript, each with its own request. -/
theorem oneBusOperationPerStep : Obligations.OneBusOperationPerStep := by
  unfold Obligations.OneBusOperationPerStep
  intro s t hstep
  obtain ⟨u, hto, rfl⟩ := step_cases hstep
  rw [State.advance_bus]
  cases hto with
  | reset | encode | validate | idle | illegal | verify | notVerified | single | loop | present => exact .inl rfl
  | read _ hf =>
    rcases s.bus_busRead s.address with hsame | ⟨answer, hmore⟩
    · exact .inl hsame
    · refine .inr (.inr ⟨answer, ?_, hmore⟩)
      rcases hf with hf | hf <;> simp [State.tRw, hf]
  | writeKey _ hf =>
    rw [State.busWrite_eq_writeResult]
    rcases s.bus_writeResult s.address s.key with hsame | ⟨err, hmore⟩
    · exact .inl hsame
    · exact .inr (.inl ⟨err, by simp [State.tRw, hf], by simpa [State.tWdata, State.tAddr, hf] using hmore⟩)
  | writeAction _ hf =>
    rw [State.busWrite_eq_writeResult]
    rcases s.bus_writeResult s.address s.abyte with hsame | ⟨err, hmore⟩
    · exact .inl hsame
    · exact .inr (.inl ⟨err, by simp [State.tRw, hf], by simpa [State.tWdata, State.tAddr, hf] using hmore⟩)
  | delay => exact .inl s.bus_delayStep
  | judge _ _ _ hu =>
    obtain ⟨-, -, -, hbus⟩ := State.frame_validateStep hu
    exact .inl hbus
  | decide _ _ _ hu => exact .inl (State.bus_of_roundTripEnd hu)

/-- Settles O46: unarmed, `IDLE` leads to a response, to the identity read of VERIFY, or stays. -/
theorem unarmedEngineTouchesNeitherBusNorSession : Obligations.UnarmedEngineTouchesNeitherBusNorSession := by
  unfold Obligations.UnarmedEngineTouchesNeitherBusNorSession
  intro s t hf hv hrst hstep
  obtain ⟨u, hto, rfl⟩ := step_cases hstep
  rw [State.advance_bus, State.session_advance, State.advance_fsm,
    show u.advance.tReq = u.tReq by simp [State.tReq, State.tRw]]
  have hidle : s.tReq = false := State.tReq_of_idle hf
  cases hto with
  | reset hp => exact absurd hp hrst
  | encode | validate | idle =>
    exact ⟨rfl, rfl, fun hreq => absurd hreq (Bool.eq_false_iff.mp hidle)⟩
  | illegal | notVerified => exact ⟨rfl, rfl, by rintro ⟨⟩⟩
  | verify => exact ⟨rfl, rfl, fun _ => rfl⟩
  | single _ _ _ _ _ _ harmed | loop _ _ _ _ _ _ harmed => simp [hv] at harmed
  | read _ hg => rcases hg with hg | hg <;> simp [hf] at hg
  | writeKey _ hg | writeAction _ hg | judge _ _ hg | decide _ _ hg | present _ hg => simp [hf] at hg
  | delay _ hg => simp [hf, Fsm.isBackoff] at hg

/-! ## The input port and the command code -/

/-- `s` with another input on its ports and another command code: what most rows pass on without a look at it. -/
def State.overlay (s : State) (port : Input) (op : Op) : State := { s with port := port, op := op }

/-- The same on the next state of an outcome. -/
def overlayOutcome (port : Input) (op : Op) (o : Host.Outcome State Fault Refusal) :
    Host.Outcome State Fault Refusal :=
  match o with
  | .next s => .next (s.overlay port op)
  | .fault f => .fault f
  | .refused r => .refused r

@[simp] theorem State.overlay_fsm (s : State) (port : Input) (op : Op) : (s.overlay port op).fsm = s.fsm := rfl

/-- The ports move on to the same input, whatever stood on them. -/
theorem State.advance_overlay (s : State) (port port' : Input) (op : Op) :
    (s.overlay port op).advance = (s.overlay port' op).advance := by
  have hscript (p : Input) : (s.overlay p op).script = s.script := rfl
  unfold State.advance
  rw [hscript, hscript]
  cases s.script <;> rfl

theorem advanceOutcome_overlay (o : Host.Outcome State Fault Refusal) (port port' : Input) (op : Op) :
    advanceOutcome (overlayOutcome port op o) = advanceOutcome (overlayOutcome port' op o) := by
  cases o with
  | next s => exact congrArg Host.Outcome.next (s.advance_overlay port port' op)
  | fault | refused => rfl

theorem State.delayStep_overlay (s : State) (port : Input) (op : Op) :
    (s.overlay port op).delayStep = s.delayStep.overlay port op := by
  unfold State.delayStep State.delayOver
  by_cases hdelay : s.delay = 0
  · rw [if_pos hdelay, if_pos (show (s.overlay port op).delay = 0 from hdelay),
      show (s.overlay port op).fsm = s.fsm from rfl]
    split <;> rfl
  · rw [if_neg hdelay, if_neg (show ¬ (s.overlay port op).delay = 0 from hdelay)]
    rfl

theorem State.commit_overlay (s : State) (port : Input) (op : Op) (sw ld : Bool) :
    (s.overlay port op).commit sw ld = overlayOutcome port op (s.commit sw ld) := by
  unfold State.commit
  rw [apply_ite (overlayOutcome port op)]
  rfl

theorem State.validateStep_overlay (s : State) (port : Input) (op : Op) :
    (s.overlay port op).validateStep = overlayOutcome port op s.validateStep := by
  cases hok : s.verdict.ok with
  | false =>
    rw [State.validateStep_of_invalid hok,
      State.validateStep_of_invalid (show (s.overlay port op).verdict.ok = false from hok)]
    rfl
  | true =>
    rw [State.validateStep_of_valid hok,
      State.validateStep_of_valid (show (s.overlay port op).verdict.ok = true from hok)]
    exact s.judged.commit_overlay port op _ _

theorem State.endSingle_overlay (s : State) (port : Input) (op : Op) :
    (s.overlay port op).endSingle = s.endSingle.overlay port op := by
  cases hc : s.rt.completed with
  | true =>
    rw [State.endSingle_of_completed hc,
      State.endSingle_of_completed (show (s.overlay port op).rt.completed = true from hc)]
    rfl
  | false =>
    rw [State.endSingle_of_aborted hc,
      State.endSingle_of_aborted (show (s.overlay port op).rt.completed = false from hc)]
    rfl

theorem State.failedAttempt_overlay {again giveUp : State → State} (port : Input) (op : Op)
    (hagain : ∀ t : State, again (t.overlay port op) = (again t).overlay port op)
    (hgiveUp : ∀ t : State, giveUp (t.overlay port op) = (giveUp t).overlay port op) (s : State) :
    (s.overlay port op).failedAttempt again giveUp = (s.failedAttempt again giveUp).overlay port op := by
  unfold State.failedAttempt
  rw [show (s.overlay port op).att = s.att from rfl]
  split
  · exact hagain { s with att := s.att + 1#4 }
  · exact hgiveUp { s with att := BitVec.ofNat 4 Config.maxAttempts }

theorem State.retryRoundTrip_overlay {giveUp : State → State} (port : Input) (op : Op)
    (hgiveUp : ∀ t : State, giveUp (t.overlay port op) = (giveUp t).overlay port op) (s : State) :
    (s.overlay port op).retryRoundTrip giveUp = (s.retryRoundTrip giveUp).overlay port op :=
  State.failedAttempt_overlay port op (fun _ => rfl) hgiveUp s

theorem State.endLoop_overlay (s : State) (port : Input) (op : Op) (flag : Bool) :
    (s.overlay port op).endLoop flag = (s.endLoop flag).overlay port op := by
  cases hc : s.rt.completed with
  | true =>
    rw [State.endLoop_of_completed flag hc,
      State.endLoop_of_completed flag (show (s.overlay port op).rt.completed = true from hc)]
    rfl
  | false =>
    rw [State.endLoop_of_aborted flag hc,
      State.endLoop_of_aborted flag (show (s.overlay port op).rt.completed = false from hc)]
    exact State.retryRoundTrip_overlay port op (fun _ => rfl) s

theorem State.endProbe_overlay (s : State) (port : Input) (op : Op) :
    (s.overlay port op).endProbe = s.endProbe.overlay port op := by
  cases hs : s.probeSucceeded with
  | true =>
    rw [State.endProbe_of_succeeded hs,
      State.endProbe_of_succeeded (show (s.overlay port op).probeSucceeded = true from hs)]
    rfl
  | false =>
    rw [State.endProbe_of_failed hs,
      State.endProbe_of_failed (show (s.overlay port op).probeSucceeded = false from hs)]
    exact State.retryRoundTrip_overlay port op (fun _ => rfl) s

theorem State.roundTripEnd_overlay_port (s : State) (port : Input) :
    (s.overlay port s.op).roundTripEnd = overlayOutcome port s.op s.roundTripEnd := by
  unfold State.roundTripEnd
  rw [State.endSingle_overlay, State.endLoop_overlay, State.endLoop_overlay, State.endProbe_overlay,
    show (s.overlay port s.op).op = s.op from rfl]
  cases s.op <;> rfl

/-- A busy engine looks at the port only for an answer of the transport: under every input that is none, the step is one
outcome with that input on the port, before the ports move on. -/
theorem step_overlay_of_busy {s : State} (hf : s.fsm ≠ .idle) :
    ∃ o, ∀ port : Input, port.engineActs = true → (∀ e b, port ≠ .done e b) →
      step (s.overlay port s.op) = advanceOutcome (overlayOutcome port s.op o) := by
  cases hfsm : s.fsm with
  | idle => exact absurd hfsm hf
  | vRd | kaRc =>
    refine ⟨.next s, fun port hacts hport => ?_⟩
    rw [step_of_read hacts (by simp [hfsm]), exec_busread_of_waiting hport]
    rfl
  | kaWk =>
    refine ⟨.next s, fun port hacts hport => ?_⟩
    rw [step_of_writeKey hacts ((s.overlay_fsm port s.op).trans hfsm), exec_buswrite, ← State.busWrite_eq_writeResult,
      State.busWrite_of_waiting _ _ _ hport]
    rfl
  | kaWa =>
    refine ⟨.next s, fun port hacts hport => ?_⟩
    rw [step_of_writeAction hacts ((s.overlay_fsm port s.op).trans hfsm), exec_buswrite, ← State.busWrite_eq_writeResult,
      State.busWrite_of_waiting _ _ _ hport]
    rfl
  | vBk | kaKb | atBk =>
    refine ⟨.next s.delayStep, fun port hacts _ => ?_⟩
    rw [step_of_backoff hacts (by simp [hfsm, Fsm.isBackoff]), State.delayStep_overlay]
    rfl
  | kaVal =>
    refine ⟨s.validateStep, fun port hacts _ => ?_⟩
    rw [step_of_kaVal hacts ((s.overlay_fsm port s.op).trans hfsm), State.validateStep_overlay]
  | rtEnd =>
    refine ⟨s.roundTripEnd, fun port hacts _ => ?_⟩
    rw [step_of_rtEnd hacts ((s.overlay_fsm port s.op).trans hfsm), State.roundTripEnd_overlay_port]
  | resp =>
    refine ⟨.next s.present, fun port hacts _ => ?_⟩
    rw [step_of_resp_eq_next hacts ((s.overlay_fsm port s.op).trans hfsm)]
    rfl

/-- Settles O45: neither a command word nor nothing is an answer of the transport. -/
theorem busyEngineDoesNotReadTheCommandPort : Obligations.BusyEngineDoesNotReadTheCommandPort := by
  unfold Obligations.BusyEngineDoesNotReadTheCommandPort
  intro s w hf
  obtain ⟨o, ho⟩ := step_overlay_of_busy hf
  calc step (s.overlay (.cmd w) s.op)
      = advanceOutcome (overlayOutcome (.cmd w) s.op o) := ho (.cmd w) rfl (by rintro _ _ ⟨⟩)
    _ = advanceOutcome (overlayOutcome .quiet s.op o) := advanceOutcome_overlay o ..
    _ = step (s.overlay .quiet s.op) := (ho .quiet rfl (by rintro _ _ ⟨⟩)).symm

end Sys2Proof.Machine
end

