-- ==== Sys2Proof/Proofs/CodecArithmetic.lean ====
section
/-! PROOF. The arithmetic of the frame codec (40_frame_codec.md sections 1 and 2). The encoder sees a key through its popcount
only, so what it does on 256 keys is what it does on nine popcounts; the validator's three checks are read off the fields of
a confirmation byte. -/

namespace Sys2Proof.Machine

/-! ## popcount -/

/-- Settles O1. -/
theorem popcountCountsOneBits : Obligations.PopcountCountsOneBits := by
  unfold Obligations.PopcountCountsOneBits
  decide

/-- Every popcount up to 8 is some key's: that of the key with this many low bits set. -/
theorem exists_popcount_eq {n : Nat} (hn : n ≤ 8) : ∃ k : Byte, popcount k = n := by
  have hlow : ∀ n ≤ 8, popcount (BitVec.ofNat 8 (2 ^ n - 1)) = n := by decide
  exact ⟨_, hlow n hn⟩

theorem popcount_eq_nibble_add (b : Byte) : popcount b = popcount ((b.extractLsb' 0 4).setWidth 8) +
    (b.getLsbD 4).toNat + (b.getLsbD 5).toNat + (b.getLsbD 6).toNat + (b.getLsbD 7).toNat := by
  revert b; decide

/-- A flipped bit changes the parity. -/
theorem popcount_flip_mod_two {i : Nat} (hi : i < 8) (b : Byte) :
    popcount (b ^^^ BitVec.twoPow 8 i) % 2 = (popcount b + 1) % 2 := by
  revert b
  interval_cases i <;> decide

theorem getLsbD_flip (b : Byte) (i j : Nat) (hj : j < 8) :
    (b ^^^ BitVec.twoPow 8 i).getLsbD j = (b.getLsbD j ^^ decide (i = j)) := by
  rw [BitVec.getLsbD_xor, BitVec.getLsbD_twoPow]
  simp
  omega

theorem toNat_and_low_nibble (b : Byte) : (b &&& 0x0F#8).toNat = (b.extractLsb' 0 4).toNat := by
  revert b; decide

/-! ## The encoder as a function of the key's popcount -/

/-- Steps 1 and 2 of ENCODE for a key with this popcount (R100). -/
def rawByteOfPopcount (n : Nat) (action : ActionKind) (led : Bool) : Byte :=
  if even (n + popcount (rawAction action led)) then rawAction action led ||| 0x80#8 else rawAction action led

/-- All four steps of ENCODE for a key with this popcount (R100). -/
def actionByteOfPopcount (n : Nat) (action : ActionKind) (led : Bool) : Byte :=
  rawByteOfPopcount n action led + BitVec.ofNat 8 ((n + popcount (rawByteOfPopcount n action led)) % 16)

theorem withParity_eq_rawByteOfPopcount (k : Byte) (a : ActionKind) (l : Bool) :
    withParity k (rawAction a l) = rawByteOfPopcount (popcount k) a l := rfl

theorem encodeActionByte_eq_actionByteOfPopcount (k : Byte) (a : ActionKind) (l : Bool) :
    encodeActionByte k a l = actionByteOfPopcount (popcount k) a l := rfl

/-- Settles O3, on the nine popcounts. -/
theorem checksumAdditionNeverCarries : Obligations.ChecksumAdditionNeverCarries := by
  unfold Obligations.ChecksumAdditionNeverCarries
  intro k a l
  have hpopcount : ∀ n ≤ 8, let raw := rawByteOfPopcount n a l
      let total := n + popcount raw
      total ∈ [1, 3, 5, 7, 9, 11] ∧ total % 16 = total ∧ raw &&& 0x0F#8 = 0#8 ∧
      raw + BitVec.ofNat 8 total = raw ||| BitVec.ofNat 8 total ∧ raw.toNat + total < 256 ∧
      actionByteOfPopcount n a l = raw + BitVec.ofNat 8 total := by
    cases a <;> cases l <;> decide
  exact hpopcount (popcount k) (popcount_le_eight k)

/-- The fields of an encoded action byte: the action's code, the LED, and an odd checksum in the low nibble that counts the
key and the upper nibble (R100 to R103). -/
structure EncodedFields (n : Nat) (a : ActionKind) (l : Bool) (b : Byte) : Prop where
  action : b.extractLsb' 4 2 = a.code
  led : b.getLsbD 6 = l
  checksum : (b &&& 0x0F#8).toNat = n + popcount (b &&& 0xF0#8)
  odd : (b &&& 0x0F#8).toNat % 2 = 1

theorem encodedFields (k : Byte) (a : ActionKind) (l : Bool) :
    EncodedFields (popcount k) a l (encodeActionByte k a l) := by
  have hfields : ∀ n ≤ 8, let b := actionByteOfPopcount n a l
      b.extractLsb' 4 2 = a.code ∧ b.getLsbD 6 = l ∧ (b &&& 0x0F#8).toNat = n + popcount (b &&& 0xF0#8) ∧
        (b &&& 0x0F#8).toNat % 2 = 1 := by
    cases a <;> cases l <;> decide
  obtain ⟨haction, hled, hchecksum, hodd⟩ := hfields (popcount k) (popcount_le_eight k)
  exact ⟨haction, hled, hchecksum, hodd⟩

/-- Settles O5: the byte's own fields give the action, the LED and, as what the checksum counts beyond the upper nibble, the
key's popcount. -/
theorem actionByteDeterminesItsInputs : Obligations.ActionByteDeterminesItsInputs := by
  unfold Obligations.ActionByteDeterminesItsInputs
  refine ⟨fun k a l => (encodedFields k a l).checksum, fun k k' a a' l l' => ⟨fun heq => ?_, ?_⟩⟩
  · have hfields := encodedFields k a l
    have hfields' := encodedFields k' a' l'
    rw [← heq] at hfields'
    refine ⟨?_, ?_, hfields.led.symm.trans hfields'.led⟩
    · have hcount := hfields.checksum.symm.trans hfields'.checksum
      omega
    · have hcode : a.code = a'.code := hfields.action.symm.trans hfields'.action
      rw [← actionOfCode_code a, hcode, actionOfCode_code]
  · rintro ⟨hpopcount, rfl, rfl⟩
    rw [encodeActionByte_eq_actionByteOfPopcount, hpopcount, ← encodeActionByte_eq_actionByteOfPopcount]

/-- Settles O6: an action byte is some key's exactly when it is one of some popcount, and these are compared one by one. -/
theorem wellFormedActionBytesAreEncoded : Obligations.WellFormedActionBytesAreEncoded := by
  unfold Obligations.WellFormedActionBytesAreEncoded
  refine ⟨fun p l a c => ?_, by decide⟩
  have hpopcount : WellFormed.actionByte p l a c = true ↔
      ∃ n ≤ 8, packActionByte p l a c = actionByteOfPopcount n a l := by
    revert c
    cases p <;> cases l <;> cases a <;> decide
  rw [hpopcount]
  constructor
  · rintro ⟨n, hn, heq⟩
    obtain ⟨k, rfl⟩ := exists_popcount_eq hn
    exact ⟨k, heq⟩
  · rintro ⟨k, heq⟩
    exact ⟨popcount k, popcount_le_eight k, heq⟩

/-! ## Counting over all keys -/

/-- A sum over all keys below `2 ^ m` of what their popcounts give. -/
def sumOverKeys (m : Nat) (f : Nat → Nat) : Nat :=
  ((List.range (2 ^ m)).map fun k => f (popcount (BitVec.ofNat 8 k))).sum

/-- Half of the keys have bit `m` set, and one more in their popcount. -/
theorem sumOverKeys_succ {m : Nat} (hm : m < 8) (f : Nat → Nat) :
    sumOverKeys (m + 1) f = sumOverKeys m f + sumOverKeys m fun n => f (n + 1) := by
  have hbit : ∀ m < 8, ∀ k < 2 ^ m, popcount (BitVec.ofNat 8 (2 ^ m + k)) = popcount (BitVec.ofNat 8 k) + 1 := by decide
  unfold sumOverKeys
  rw [pow_succ, mul_two, List.range_add, List.map_append, List.sum_append, List.map_map]
  congr 2
  exact List.map_congr_left fun k hk => congrArg f (hbit m hm k (List.mem_range.mp hk))

/-- On how many of the eight inputs with a key of this popcount the literal parity sum is even (R102). -/
def evenLiteralSums (n : Nat) : Nat :=
  ([ActionKind.test, .press, .release, .releaseAll].map fun a =>
    [false, true].countP fun l => (n + popcount (actionByteOfPopcount n a l)) % 2 == 0).sum

/-- Settles O4: the checksum is odd, and the literal sums are counted popcount by popcount. -/
theorem frameParityIsOdd : Obligations.FrameParityIsOdd := by
  unfold Obligations.FrameParityIsOdd
  constructor
  · intro k a l
    have hfields := encodedFields k a l
    rw [← hfields.checksum]
    exact hfields.odd
  · have htable : ∀ n ≤ 8, evenLiteralSums n = [4, 1, 0, 1, 4, 6, 4, 2, 4].getD n 0 := by decide
    calc sumOverKeys 8 evenLiteralSums
        = sumOverKeys 8 fun n => [4, 1, 0, 1, 4, 6, 4, 2, 4].getD n 0 :=
          congrArg List.sum (List.map_congr_left fun k _ => htable _ (popcount_le_eight _))
      _ = 816 := by
          simp only [sumOverKeys_succ, Nat.reduceLT]
          decide

/-! ## The validator -/

/-- Settles O8: the checksum field of an encoded byte is what the validator counts, and it counts four bits beside the
key's eight. -/
theorem expectedChecksumIsTheNibbleSent : Obligations.ExpectedChecksumIsTheNibbleSent := by
  unfold Obligations.ExpectedChecksumIsTheNibbleSent
  refine ⟨fun k a l => (encodedFields k a l).checksum.symm, fun k ab => ⟨?_, ?_⟩⟩
  · rw [expectedChecksum, expectedChecksum, BitVec.and_assoc, BitVec.and_self]
  · have hupper : popcount (ab &&& 0xF0#8) ≤ 4 := by revert ab; decide
    exact Nat.add_le_add (popcount_le_eight k) hupper

/-- Settles O11: the identity byte has two bits set. -/
theorem identityByteIsNoConfirmation : Obligations.IdentityByteIsNoConfirmation := by
  unfold Obligations.IdentityByteIsNoConfirmation
  intro k ab
  have hparity : parityMismatch Config.identity = true := by decide
  rw [Bool.eq_false_iff, ne_eq, validateConfirmation_ok_iff, hparity]
  simp

theorem checksumMismatch_of_encoded (k : Byte) (a : ActionKind) (l : Bool) (c : Byte) :
    checksumMismatch k (encodeActionByte k a l) c =
      decide (c.extractLsb' 0 4 ≠ (encodeActionByte k a l).extractLsb' 0 4) := by
  rw [checksumMismatch_eq_decide, ← (encodedFields k a l).checksum, toNat_and_low_nibble, toNat_and_low_nibble]
  simp only [ne_eq, BitVec.toNat_inj]

theorem remoteErrorFlag_eq_getLsbD (c : Byte) : remoteErrorFlag c = c.getLsbD 6 := by revert c; decide

/-- A confirmation of an encoded frame is valid when it carries the frame's checksum, no error flag, and odd parity
(R108). -/
theorem validateConfirmation_ok_iff_fields (k : Byte) (a : ActionKind) (l : Bool) (c : Byte) :
    (validateConfirmation k (encodeActionByte k a l) c).ok = true ↔
      c.extractLsb' 0 4 = (encodeActionByte k a l).extractLsb' 0 4 ∧ c.getLsbD 6 = false ∧ popcount c % 2 = 1 := by
  rw [validateConfirmation_ok_iff, checksumMismatch_of_encoded, remoteErrorFlag_eq_getLsbD, parityMismatch_eq_decide]
  simp only [decide_eq_false_iff_not, not_not, Nat.mod_two_ne_zero, ne_eq]
  tauto

/-- The fields of `GoodConfirm` (R108). -/
theorem goodConfirm_fields (chk : BitVec 4) (sw ld : Bool) :
    (goodConfirm chk sw ld).extractLsb' 0 4 = chk ∧ (goodConfirm chk sw ld).getLsbD 6 = false ∧
      popcount (goodConfirm chk sw ld) % 2 = 1 ∧ (goodConfirm chk sw ld).getLsbD 5 = sw ∧
      (goodConfirm chk sw ld).getLsbD 4 = ld := by
  revert chk
  cases sw <;> cases ld <;> decide

/-- A byte without the error flag and with odd parity is the `GoodConfirm` of its own fields. -/
theorem eq_goodConfirm_of_fields (c : Byte) (hflag : c.getLsbD 6 = false) (hodd : popcount c % 2 = 1) :
    c = goodConfirm (c.extractLsb' 0 4) (c.getLsbD 5) (c.getLsbD 4) := by
  revert c; decide

/-- Settles O9: bit 7 is what makes the parity odd, and the two flags are free. -/
theorem validConfirmationsAreExactlyFour : Obligations.ValidConfirmationsAreExactlyFour := by
  unfold Obligations.ValidConfirmationsAreExactlyFour
  intro k a l c chk ok
  have hok : ok = true ↔ c.extractLsb' 0 4 = chk ∧ c.getLsbD 6 = false ∧ popcount c % 2 = 1 :=
    validateConfirmation_ok_iff_fields k a l c
  refine ⟨hok.trans ?conditions, hok.trans ?four, fun sw ld sw' ld' heq => ?distinct⟩
  case conditions =>
    refine and_congr_right fun hchk => and_congr_right fun hflag => ?_
    have hsplit := popcount_eq_nibble_add c
    rw [hchk, hflag] at hsplit
    have hparity := (c.getLsbD 7).toNat_le
    rw [hsplit]
    simp only [Bool.toNat_false]
    omega
  case four =>
    constructor
    · rintro ⟨hchk, hflag, hodd⟩
      exact ⟨_, _, hchk ▸ eq_goodConfirm_of_fields c hflag hodd⟩
    · rintro ⟨sw, ld, rfl⟩
      obtain ⟨hchk, hflag, hodd, -, -⟩ := goodConfirm_fields chk sw ld
      exact ⟨hchk, hflag, hodd⟩
  case distinct =>
    obtain ⟨-, -, -, hsw, hld⟩ := goodConfirm_fields chk sw ld
    obtain ⟨-, -, -, hsw', hld'⟩ := goodConfirm_fields chk sw' ld'
    rw [heq] at hsw hld
    exact ⟨hsw.symm.trans hsw', hld.symm.trans hld'⟩

/-- A flip in bits 7, 5, 4 leaves the checksum and the error flag. -/
theorem flip_of_free_bit {i : Nat} (hi : i ∈ [4, 5, 7]) (b : Byte) :
    (b ^^^ BitVec.twoPow 8 i).extractLsb' 0 4 = b.extractLsb' 0 4 ∧
      (b ^^^ BitVec.twoPow 8 i).getLsbD 6 = b.getLsbD 6 ∧
      popcount (b ^^^ BitVec.twoPow 8 i) % 2 = (popcount b + 1) % 2 := by
  have hcases : i = 4 ∨ i = 5 ∨ i = 7 := by simpa using hi
  refine ⟨BitVec.eq_of_getLsbD_eq fun j hj => ?_, ?_, popcount_flip_mod_two (by omega) b⟩
  · have hne : i ≠ j := by omega
    rw [BitVec.getLsbD_extractLsb', BitVec.getLsbD_extractLsb', Nat.zero_add, getLsbD_flip b i j (by omega),
      decide_eq_false hne, Bool.xor_false]
  · have hne : i ≠ 6 := by omega
    rw [getLsbD_flip b i 6 (by decide), decide_eq_false hne, Bool.xor_false]

/-- Settles O10: one flip turns the parity, two flips turn it back. -/
theorem singleBitErrorsAreDetected : Obligations.SingleBitErrorsAreDetected := by
  unfold Obligations.SingleBitErrorsAreDetected
  intro k a l c ab hvalid
  obtain ⟨hchk, hflag, hodd⟩ := (validateConfirmation_ok_iff_fields k a l c).mp hvalid
  refine ⟨fun i => ?single, fun i hi j hj _ => ?double⟩
  case single =>
    intro v
    have hparity : parityMismatch (c ^^^ BitVec.twoPow 8 i) = true := by
      rw [parityMismatch_eq_decide, popcount_flip_mod_two i.isLt, decide_eq_true_iff]
      omega
    refine ⟨?ok, (validationErr_parity ..).trans hparity, fun hi => ?checksum, fun hi => ?remote⟩
    case ok =>
      rw [Bool.eq_false_iff, ne_eq, validateConfirmation_ok_iff, hparity]
      simp
    case checksum =>
      refine (validationErr_checksum ..).trans ?_
      rw [checksumMismatch_of_encoded, decide_eq_true_iff, ← hchk]
      intro heq
      have hbit := congrArg (fun w : BitVec 4 => w.getLsbD i) heq
      simp [hi] at hbit
    case remote =>
      refine (validationErr_remote ..).trans ?_
      rw [remoteErrorFlag_eq_getLsbD, getLsbD_flip c i 6 (by decide), hflag]
      simp [hi]
  case double =>
    obtain ⟨hchk₁, hflag₁, hparity₁⟩ := flip_of_free_bit hi c
    obtain ⟨hchk₂, hflag₂, hparity₂⟩ := flip_of_free_bit hj (c ^^^ BitVec.twoPow 8 i)
    refine (validateConfirmation_ok_iff_fields k a l _).mpr ⟨?_, ?_, ?_⟩
    · rw [hchk₂, hchk₁, hchk]
    · rw [hflag₂, hflag₁, hflag]
    · omega

end Sys2Proof.Machine
end

