-- ==== Sys2Proof/Proofs/Runs.lean ====
section
/-! PROOF. Runs over given inputs (41_transport_engine.md section 3). `Drives s inputs t` says that these inputs bring the
machine from `s` to `t`; runs are put together from it by concatenating the inputs, and each row of the transition table
gives one input's worth. -/

namespace Sys2Proof.Machine

/-- Under these inputs the machine goes from `s` to `t`, whatever the inputs after them. -/
def Drives (s : State) (inputs : List Input) (t : State) : Prop :=
  ∀ (i : Input) (rest : List Input),
    run inputs.length (s.withInputs (inputs ++ i :: rest)) = .next (t.withInputs (i :: rest))

namespace Drives

theorem refl (s : State) : Drives s [] s := fun _ _ => rfl

theorem trans {s t u : State} {xs ys : List Input} (hst : Drives s xs t) (htu : Drives t ys u) :
    Drives s (xs ++ ys) u := by
  intro i rest
  obtain ⟨j, more, hmore⟩ : ∃ j more, ys ++ i :: rest = j :: more := by
    cases ys with
    | nil => exact ⟨i, rest, rfl⟩
    | cons y ys => exact ⟨y, ys ++ i :: rest, rfl⟩
  have hfirst := hst j more
  rw [← hmore] at hfirst
  rw [List.length_append, List.append_assoc, run_add _ _ hfirst]
  exact htu i rest

/-- One row of the transition table is one input. -/
theorem single {s t : State} {x : Input}
    (h : ∀ rest, step (s.withInputs (x :: rest)) = .next (t.withInputs (x :: rest)).advance) : Drives s [x] t :=
  fun i rest => (run_succ 0 (h (i :: rest))).trans (run_zero _)

theorem cons {s t u : State} {x : Input} {xs : List Input} (hst : Drives s [x] t) (htu : Drives t xs u) :
    Drives s (x :: xs) u :=
  hst.trans htu

theorem congr {s t u : State} {inputs : List Input} (h : Drives s inputs t) (htu : t = u) : Drives s inputs u :=
  htu ▸ h

/-- The run a `Drives` stands for, with its inputs and their number in any form. -/
theorem run_eq {s t : State} {inputs all : List Input} {k : Nat} (h : Drives s inputs t) (i : Input)
    (rest : List Input) (hk : inputs.length = k) (hall : inputs ++ i :: rest = all) :
    run k (s.withInputs all) = .next (t.withInputs (i :: rest)) := by
  rw [← hk, ← hall]
  exact h i rest

end Drives

@[simp] theorem State.withInputs_fsm (s : State) (inputs : List Input) : (s.withInputs inputs).fsm = s.fsm := by
  cases inputs <;> rfl

/-! ## Waiting -/

theorem State.delayOver_withInputs (s : State) (x : Input) (rest : List Input) :
    (s.withInputs (x :: rest)).delayOver = s.delayOver.withInputs (x :: rest) := by
  unfold State.delayOver
  rw [show (s.withInputs (x :: rest)).fsm = s.fsm from rfl]
  cases s.fsm <;> rfl

/-- A backoff takes the steps left to wait and one more (R191). -/
theorem drives_backoff {s : State} (hf : s.fsm.isBackoff = true) :
    Drives s (List.replicate (s.delay + 1) .quiet) { s with delay := 0 }.delayOver := by
  induction hd : s.delay generalizing s with
  | zero =>
    refine .single fun rest => ?_
    have hover : (s.withInputs (.quiet :: rest)).delayStep = (s.withInputs (.quiet :: rest)).delayOver := if_pos hd
    rw [step_of_backoff rfl (by simpa using hf), hover, State.delayOver_withInputs, ← hd]
  | succ d ih =>
    have hcount (rest : List Input) : (s.withInputs (.quiet :: rest)).delayStep =
        { s with delay := d }.withInputs (.quiet :: rest) := by
      simp [State.delayStep, State.withInputs, hd]
    have hfirst : Drives s [.quiet] { s with delay := d } :=
      .single fun rest => by rw [step_of_backoff rfl (by simpa using hf), hcount]
    exact hfirst.cons (ih (s := { s with delay := d }) hf rfl)

/-- Settles O60: the backoff before another round trip starts it with the action byte that stands in `abyte`. -/
theorem backoffOnlyTakesTime : Obligations.BackoffOnlyTakesTime := by
  unfold Obligations.BackoffOnlyTakesTime
  intro s i rest hf
  have hbackoff : s.fsm.isBackoff = true := by rcases hf with hf | hf | ⟨hf, -⟩ <;> rw [hf] <;> rfl
  rw [(drives_backoff hbackoff).run_eq i rest List.length_replicate rfl]
  unfold State.delayOver
  rcases hf with hf | hf | ⟨hf, habyte⟩
  · simp only [hf, if_true]
  · simp only [hf, reduceCtorEq, if_false]
  · have hencoded := habyte (by rw [hf]; rfl)
    simp only [hf, reduceCtorEq, if_false, State.startRT, ← hencoded]

/-- A request stands until it is answered (20_memory.md section 4). -/
theorem drives_waiting {s : State} (hreq : s.tReq = true) (n : Nat) : Drives s (List.replicate n .quiet) s := by
  induction n with
  | zero => exact .refl s
  | succ n ih =>
    refine .cons (.single fun rest => ?_) ih
    have hquiet : ∀ e b, (s.withInputs (.quiet :: rest)).port ≠ .done e b := by rintro e b ⟨⟩
    have hfsm := s.withInputs_fsm (.quiet :: rest)
    cases hf : s.fsm <;> rw [hf] at hfsm <;>
      simp only [State.tReq, State.tRw, hf, Option.isSome, Bool.false_eq_true] at hreq
    case vRd => rw [step_of_read rfl (.inl hfsm), exec_busread_of_waiting hquiet, advanceOutcome]
    case kaRc => rw [step_of_read rfl (.inr hfsm), exec_busread_of_waiting hquiet, advanceOutcome]
    case kaWk => rw [step_of_writeKey rfl hfsm, exec_buswrite, advanceOutcome]; rfl
    case kaWa => rw [step_of_writeAction rfl hfsm, exec_buswrite, advanceOutcome]; rfl

/-! ## The rows of a round trip, one input each -/

theorem drives_key_error {s : State} (hf : s.fsm = .kaWk) (b : Byte) : Drives s [.done true b] { s with
    bus := s.bus ++ [BusEvent.write s.address s.key true], fsm := .kaKb, delay := s.params.backoffKeyWrite } := by
  refine .single fun rest => ?_
  rw [step_of_writeKey rfl ((s.withInputs_fsm _).trans hf), exec_buswrite, advanceOutcome]
  simp [State.writeResult, State.withInputs, hf]

theorem drives_key_ok {s : State} (hf : s.fsm = .kaWk) (b : Byte) : Drives s [.done false b] { s with
    bus := s.bus ++ [BusEvent.write s.address s.key false], fsm := .kaWa } := by
  refine .single fun rest => ?_
  rw [step_of_writeKey rfl ((s.withInputs_fsm _).trans hf), exec_buswrite, advanceOutcome]
  simp [State.writeResult, State.withInputs, hf]

theorem drives_action_error {s : State} (hf : s.fsm = .kaWa) (b : Byte) : Drives s [.done true b] { s with
    bus := s.bus ++ [BusEvent.write s.address s.abyte true], rt := ⟨false, false, 0#3⟩, fsm := .rtEnd } := by
  refine .single fun rest => ?_
  rw [step_of_writeAction rfl ((s.withInputs_fsm _).trans hf), exec_buswrite, advanceOutcome]
  simp [State.writeResult, State.withInputs, hf]

theorem drives_action_ok {s : State} (hf : s.fsm = .kaWa) (b : Byte) : Drives s [.done false b] { s with
    bus := s.bus ++ [BusEvent.write s.address s.abyte false], fsm := .kaRc } := by
  refine .single fun rest => ?_
  rw [step_of_writeAction rfl ((s.withInputs_fsm _).trans hf), exec_buswrite, advanceOutcome]
  simp [State.writeResult, State.withInputs, hf]

theorem drives_confirm_error {s : State} (hf : s.fsm = .kaRc) (b : Byte) : Drives s [.done true b] { s with
    bus := s.bus ++ [BusEvent.read s.address none], rt := ⟨false, false, 0#3⟩, fsm := .rtEnd } := by
  refine .single fun rest => ?_
  have hf' : (s.withInputs (.done true b :: rest)).fsm = .kaRc := hf
  rw [step_of_read rfl (.inr hf'), exec_busread_of_error rfl, State.readResult_kaRc_none hf', advanceOutcome]
  rfl

theorem drives_confirm_byte {s : State} (hf : s.fsm = .kaRc) (c : Byte) : Drives s [.done false c] { s with
    bus := s.bus ++ [BusEvent.read s.address (some c)], conf := c, fsm := .kaVal } := by
  refine .single fun rest => ?_
  have hf' : (s.withInputs (.done false c :: rest)).fsm = .kaRc := hf
  rw [step_of_read rfl (.inr hf'), exec_busread_of_byte rfl, State.readResult_kaRc_some hf', advanceOutcome]
  rfl

/-- What the commit of a round trip with this confirmation makes of the state, if it is valid (R129). -/
def State.committing (s : State) (c : Byte) : State :=
  let ok := (validateConfirmation s.key s.abyte c).ok
  { s with
    pressed := if ok then commitPressed s.pressed s.act s.key else s.pressed
    switchEnabled := if ok then c.getLsbD 5 else s.switchEnabled
    ledOn := if ok then c.getLsbD 4 else s.ledOn }

theorem State.committing_of_invalid {s : State} {c : Byte} (hok : (validateConfirmation s.key s.abyte c).ok = false) :
    s.committing c = s := by
  simp only [State.committing, hok, Bool.false_eq_true, if_false]

theorem drives_validate {s : State} (hf : s.fsm = .kaVal) (hroom : s.act = .press → s.pressedAtCap = false) :
    Drives s [.quiet] (s.committing s.conf).judged := by
  refine .single fun rest => ?_
  obtain ⟨-, hinvalid, hvalid⟩ := validationTransition (s.withInputs (.quiet :: rest)) hf rfl
  have hroom : ¬ (s.act = .press ∧ s.pressedAtCap = true) := by
    rintro ⟨hpress, hfull⟩
    simp [hroom hpress] at hfull
  cases hok : s.verdict.ok with
  | false =>
    refine (hinvalid hok).trans ?_
    rw [State.committing_of_invalid hok]
    rfl
  | true =>
    have hok : (validateConfirmation s.key s.abyte s.conf).ok = true := hok
    refine (hvalid hok hroom).trans ?_
    simp only [State.judged, State.committing, hok, if_true]
    rfl

/-! ## Round trips -/

theorem repeated_succ (n : Nat) (inputs : List Input) : repeated (n + 1) inputs = inputs ++ repeated n inputs := rfl

theorem length_repeated (n : Nat) (inputs : List Input) : (repeated n inputs).length = n * inputs.length := by
  simp [repeated]

theorem length_failedKeyWrites (s : State) (n : Nat) :
    (repeated n (failedKeyWrite s)).length = n * failedKeyWriteSteps s := by
  simp [length_repeated, failedKeyWrite, failedKeyWriteSteps]

/-- A failed key id byte write leaves its mark on the transcript only (R137). -/
theorem drives_failed_key_write {s : State} (hf : s.fsm = .kaWk) (hd : s.delay = 0) :
    Drives s (failedKeyWrite s) { s with bus := s.bus ++ [BusEvent.write s.address s.key true] } := by
  refine (drives_key_error hf 0#8).cons (.congr (drives_backoff rfl) ?_)
  simp only [State.delayOver, ← hf, ← hd]

theorem drives_failed_key_writes {s : State} (hf : s.fsm = .kaWk) (hd : s.delay = 0) (n : Nat) :
    Drives s (repeated n (failedKeyWrite s))
      { s with bus := s.bus ++ List.replicate n (BusEvent.write s.address s.key true) } := by
  induction n generalizing s with
  | zero => exact .congr (.refl s) (by simp)
  | succ n ih =>
    rw [repeated_succ]
    refine (drives_failed_key_write hf hd).trans (.congr (ih hf hd) ?_)
    simp [List.replicate_succ]

/-- The key id byte is delivered in the end (R137). -/
theorem drives_key_delivered {s : State} (hf : s.fsm = .kaWk) (hd : s.delay = 0) (n : Nat) (b : Byte) :
    Drives s (repeated n (failedKeyWrite s) ++ [.done false b])
      { s with
        bus := s.bus ++ List.replicate n (BusEvent.write s.address s.key true) ++
          [BusEvent.write s.address s.key false]
        fsm := .kaWa } :=
  (drives_failed_key_writes hf hd n).trans (drives_key_ok (by exact hf) b)

/-- Settles O59. -/
theorem theTwoWaitsNeverEndByThemselves : Obligations.TheTwoWaitsNeverEndByThemselves := by
  unfold Obligations.TheTwoWaitsNeverEndByThemselves
  intro s n i rest
  exact ⟨fun hf hd => (drives_failed_key_writes hf hd n).run_eq i rest (length_failedKeyWrites s n) rfl,
    fun hreq => (drives_waiting hreq n).run_eq i rest List.length_replicate rfl⟩

/-- `RT_END` after a round trip that commits nothing: its bus operations, its confirmation and its outcome are left. -/
def State.spent (s : State) (a : Attempt) : State :=
  { s with
    bus := s.bus ++ a.traffic s.address s.key s.abyte
    conf := a.confAfter s.conf
    rt := a.outcome s.key s.abyte
    fsm := .rtEnd }

/-- A round trip that completes (R126, R128, R129). -/
theorem drives_completed {s : State} (hf : s.fsm = .kaWk) (hd : s.delay = 0)
    (hroom : s.act = .press → s.pressedAtCap = false) (n : Nat) (c : Byte) :
    Drives s (Attempt.inputs ⟨n, .confirmed c⟩ s) ((s.committing c).spent ⟨n, .confirmed c⟩) := by
  have hrun := (drives_key_delivered hf hd n 0#8).trans
    ((drives_action_ok rfl 0#8).cons ((drives_confirm_byte rfl c).cons (drives_validate rfl hroom)))
  rw [List.append_assoc] at hrun
  refine hrun.congr ?_
  simp [State.judged, State.committing, State.spent, State.verdict, Attempt.traffic, Attempt.confAfter, Attempt.outcome,
    frameTraffic]

/-- A round trip that aborts (R126 steps 4 and 5, R138). -/
theorem drives_aborted {s : State} (hf : s.fsm = .kaWk) (hd : s.delay = 0) {a : Attempt} (ha : a.aborts = true) :
    Drives s (a.inputs s) (s.spent a) := by
  obtain ⟨n, ending⟩ := a
  have hkey := drives_key_delivered hf hd n 0#8
  cases ending with
  | writeError =>
    have hrun := hkey.trans (drives_action_error rfl 0#8)
    rw [List.append_assoc] at hrun
    refine hrun.congr ?_
    simp [State.spent, Attempt.traffic, Attempt.confAfter, Attempt.outcome]
  | readError =>
    have hrun := hkey.trans ((drives_action_ok rfl 0#8).cons (drives_confirm_error rfl 0#8))
    rw [List.append_assoc] at hrun
    refine hrun.congr ?_
    simp [State.spent, Attempt.traffic, Attempt.confAfter, Attempt.outcome]
  | confirmed c => simp [Attempt.aborts] at ha

/-- Settles O49. -/
theorem completedRoundTripRun : Obligations.CompletedRoundTripRun := by
  unfold Obligations.CompletedRoundTripRun
  intro s n c i rest hf hd hroom v
  have hlength : (Attempt.inputs ⟨n, .confirmed c⟩ s).length = n * failedKeyWriteSteps s + 4 := by
    simp [Attempt.inputs, answeredFrame, length_failedKeyWrites]
  refine ((drives_completed hf hd hroom n c).run_eq i rest hlength rfl).trans ?_
  simp [State.committing, State.spent, Attempt.traffic, Attempt.confAfter, Attempt.outcome, v]

/-- Settles O50. -/
theorem abortedRoundTripRun : Obligations.AbortedRoundTripRun := by
  unfold Obligations.AbortedRoundTripRun
  intro s n i rest hf hd retried aborted
  constructor
  · refine ((drives_aborted hf hd (a := ⟨n, .writeError⟩) rfl).run_eq i rest
      (by simp [Attempt.inputs, length_failedKeyWrites]) rfl).trans ?_
    simp [State.spent, Attempt.traffic, Attempt.confAfter, Attempt.outcome, aborted, retried]
  · refine ((drives_aborted hf hd (a := ⟨n, .readError⟩) rfl).run_eq i rest
      (by simp [Attempt.inputs, length_failedKeyWrites]) rfl).trans ?_
    simp [State.spent, Attempt.traffic, Attempt.confAfter, Attempt.outcome, aborted, retried]

end Sys2Proof.Machine
end

