-- ==== Sys2Proof/Proofs/CommandRuns.lean ====
section
/-! PROOF. The commands from their word to their response (41_transport_engine.md sections 3 to 5, 42_derived_ops.md section 2):
the word starts a round trip or the identity read, failed attempts are counted and retried, the last one is answered. -/

namespace Sys2Proof.Machine

/-! ## The word and the response -/

theorem withInputs_cmd_fsm {s : State} (hf : s.fsm = .idle) (w : BitVec 16) (rest : List Input) :
    (s.withInputs (.cmd w :: rest)).fsm = .idle := hf

/-- A legal command word in `IDLE` is one input. -/
theorem drives_command {s t : State} {w : BitVec 16} {i : Instr} (hf : s.fsm = .idle) (hd : decode (.cmd w) = .ok i)
    (he : ∀ rest, exec i (s.withInputs (.cmd w :: rest)) = .next (t.withInputs (.cmd w :: rest))) :
    Drives s [.cmd w] t :=
  .single fun rest => step_of_idle_command (withInputs_cmd_fsm hf w rest) rfl hd (he rest)

theorem drives_keyaction {s : State} (hf : s.fsm = .idle) (hv : s.verified = true) (k : Byte) (a : ActionKind)
    (l : Bool) : Drives s [.cmd (packCmd 2#4 l a.code k)] (s.started .keyaction k a l) :=
  drives_command hf (decodeOfEncodeIsTheInstruction (.keyaction k a l)) fun _ => by
    obtain ⟨hkeyaction, -⟩ := armedCommandsStartTheirRoundTrip _ (withInputs_cmd_fsm hf _ _) hv
    exact hkeyaction k a l

theorem drives_releaseall {s : State} (hf : s.fsm = .idle) (hv : s.verified = true) :
    Drives s [.cmd 0x5000#16] { s.started .releaseall 0#8 .releaseAll true with att := 0#4 } :=
  drives_command hf (i := .releaseall) (by decide) fun _ => by
    obtain ⟨-, -, -, hreleaseall, -⟩ := armedCommandsStartTheirRoundTrip _ (withInputs_cmd_fsm hf _ _) hv
    exact hreleaseall

theorem drives_kbden {s : State} (hf : s.fsm = .idle) (hv : s.verified = true) :
    Drives s [.cmd 0x6000#16] { s.started .kbden 0#8 .test false with att := 0#4 } :=
  drives_command hf (i := .kbden) (by decide) fun _ => by
    obtain ⟨-, -, -, -, hkbden⟩ := armedCommandsStartTheirRoundTrip _ (withInputs_cmd_fsm hf _ _) hv
    exact hkbden

/-- The identity read loop at its start (R131). -/
def State.reading (s : State) : State :=
  { s with rsp := { s.rsp with valid := false }, op := .verify, att := 0#4, fsm := .vRd }

theorem drives_verify {s : State} (hf : s.fsm = .idle) : Drives s [.cmd 0x1000#16] s.reading :=
  drives_command hf (i := .verify) (by decide) fun _ => exec_verify_of_idle (withInputs_cmd_fsm hf _ _)

/-- The response is presented, and the engine is back in `IDLE` (R141). -/
theorem drives_present {s : State} (r : Response) :
    Drives (s.answered r) [.quiet] { s with rsp := { r with valid := true }, fsm := .idle } :=
  .single fun _ => step_of_resp_eq_next rfl rfl

/-! ## `RT_END` -/

theorem drives_single_finished {s : State} (hf : s.fsm = .rtEnd)
    (hop : s.op = .keyaction ∨ s.op = .press ∨ s.op = .release) (hc : s.rt.completed = true) :
    Drives s [.quiet] (s.answered ⟨false, .done, false, s.rt.ok, s.rt.err, s.conf⟩) := by
  refine .single fun rest => ?_
  obtain ⟨hend, -⟩ := roundTripEndTransitions (s.withInputs (.quiet :: rest)) rfl
  obtain ⟨hsingle, -⟩ := hend hf
  exact (hsingle hop).1 hc

theorem drives_loop_finished {s : State} {flag : Bool} (hf : s.fsm = .rtEnd)
    (hop : (s.op = .releaseall ∧ flag = true) ∨ (s.op = .kbden ∧ flag = s.switchEnabled))
    (hc : s.rt.completed = true) :
    Drives s [.quiet] (s.answered ⟨false, .done, flag, s.rt.ok, s.rt.err, s.conf⟩) := by
  refine .single fun rest => ?_
  obtain ⟨hend, -⟩ := roundTripEndTransitions (s.withInputs (.quiet :: rest)) rfl
  obtain ⟨-, hloop, -⟩ := hend hf
  exact (hloop flag hop).1 hc

theorem drives_probe_finished {s : State} (hf : s.fsm = .rtEnd) (hop : s.op = .verify) (hs : s.probeSucceeded = true) :
    Drives s [.quiet] (s.answered ⟨false, .done, true, s.rt.ok, s.rt.err, s.conf⟩) := by
  refine .single fun rest => ?_
  obtain ⟨hend, -⟩ := roundTripEndTransitions (s.withInputs (.quiet :: rest)) rfl
  obtain ⟨-, -, hprobe⟩ := hend hf
  exact (hprobe hop).1 (s.probeSucceeded_iff.mp hs)

/-- `RT_END` with an attempt that failed, in a loop over whole round trips (R140). -/
def State.AttemptFailed (s : State) : Prop :=
  s.fsm = .rtEnd ∧
  (((s.op = .releaseall ∨ s.op = .kbden) ∧ s.rt.completed = false) ∨ (s.op = .verify ∧ s.probeSucceeded = false))

/-- A failed attempt that is not the tenth is counted. -/
theorem drives_count {s : State} (h : s.AttemptFailed) (hatt : s.att.toNat + 1 < 10) :
    Drives s [.quiet] { s with att := s.att + 1#4, fsm := .atBk, delay := s.params.backoffAttempt } := by
  refine .single fun rest => ?_
  obtain ⟨hf, hfailed⟩ := h
  obtain ⟨hend, -⟩ := roundTripEndTransitions (s.withInputs (.quiet :: rest)) rfl
  obtain ⟨-, hloop, hprobe⟩ := hend hf
  rcases hfailed with ⟨hop | hop, hc⟩ | ⟨hop, hs⟩
  · obtain ⟨-, hwaiting, -⟩ := hloop true (.inl ⟨hop, rfl⟩)
    exact hwaiting hc hatt
  · obtain ⟨-, hwaiting, -⟩ := hloop s.switchEnabled (.inr ⟨hop, rfl⟩)
    exact hwaiting hc hatt
  · obtain ⟨-, hwaiting, -⟩ := hprobe hop
    exact hwaiting (s.probeSucceeded_iff.not.mp (Bool.eq_false_iff.mp hs)) hatt

/-- The tenth failed attempt is answered with `rsp_flag` = 0; VERIFY's disarms. -/
theorem drives_give_up {s : State} (h : s.AttemptFailed) (hatt : s.att.toNat + 1 = 10) :
    Drives s [.quiet] ({ s with
      att := 10#4
      verified := if s.op = Op.verify then false else s.verified }.answered ⟨false, .done, false, false, 0#3, 0#8⟩) := by
  refine .single fun rest => ?_
  obtain ⟨hf, hfailed⟩ := h
  obtain ⟨hend, -⟩ := roundTripEndTransitions (s.withInputs (.quiet :: rest)) rfl
  obtain ⟨-, hloop, hprobe⟩ := hend hf
  rcases hfailed with ⟨hop | hop, hc⟩ | ⟨hop, hs⟩
  · obtain ⟨-, -, hgaveUp⟩ := hloop true (.inl ⟨hop, rfl⟩)
    rw [if_neg (by simp [hop])]
    exact hgaveUp hc hatt
  · obtain ⟨-, -, hgaveUp⟩ := hloop s.switchEnabled (.inr ⟨hop, rfl⟩)
    rw [if_neg (by simp [hop])]
    exact hgaveUp hc hatt
  · obtain ⟨-, -, hgaveUp⟩ := hprobe hop
    rw [if_pos hop]
    exact hgaveUp (s.probeSucceeded_iff.not.mp (Bool.eq_false_iff.mp hs)) hatt

/-! ## Bounded loops of round trips -/

/-- A round trip of a bounded loop is about to start: at the key id byte write, with the encoder's action byte. -/
def State.AtAttempt (s : State) : Prop :=
  s.fsm = .kaWk ∧ s.delay = 0 ∧ s.abyte = encodeActionByte s.key s.act s.led

/-- The attempt fails in the loop of the command at hand: it aborts, or it is a probe of VERIFY that is not accepted. -/
def State.Fails (s : State) (a : Attempt) : Prop :=
  ((s.op = .releaseall ∨ s.op = .kbden) ∧ a.aborts = true) ∨
  (s.op = .verify ∧ s.key = 0#8 ∧ s.act = .test ∧ s.abyte = 0x81#8 ∧ a.failsProbe s.params.probeSuccess = true)

/-- An aborted attempt leaves no completed round trip. -/
theorem Attempt.outcome_of_aborts {a : Attempt} (ha : a.aborts = true) (key actionByte : Byte) :
    a.outcome key actionByte = ⟨false, false, 0#3⟩ := by
  obtain ⟨n, ending⟩ := a
  cases ending with
  | writeError | readError => rfl
  | confirmed c => simp [Attempt.aborts] at ha

/-- A failed attempt commits nothing and is a failed one at `RT_END`. -/
theorem drives_failed {s : State} {a : Attempt} (h : s.AtAttempt) (hfails : s.Fails a) :
    Drives s (a.inputs s) (s.spent a) ∧ (s.spent a).AttemptFailed := by
  obtain ⟨hf, hd, -⟩ := h
  rcases hfails with ⟨hop, ha⟩ | ⟨hop, hkey, hact, habyte, hprobe⟩
  · exact ⟨drives_aborted hf hd ha, rfl, .inl ⟨hop, congrArg RoundTrip.completed (Attempt.outcome_of_aborts ha _ _)⟩⟩
  · cases ha : a.aborts with
    | true =>
      refine ⟨drives_aborted hf hd ha, rfl, .inr ⟨hop, ?_⟩⟩
      simp [State.probeSucceeded, State.spent, Attempt.outcome_of_aborts ha]
    | false =>
      obtain ⟨n, ending⟩ := a
      cases ending with
      | writeError | readError => simp [Attempt.aborts] at ha
      | confirmed c =>
        have hrejected : probeAccepts s.params.probeSuccess c = false := by simpa [Attempt.failsProbe] using hprobe
        simp only [probeAccepts, Bool.or_eq_false_iff, ← hkey, ← habyte] at hrejected
        obtain ⟨hok, hmode⟩ := hrejected
        have hrun := drives_completed hf hd (by simp [hact]) n c
        rw [State.committing_of_invalid hok] at hrun
        refine ⟨hrun, rfl, .inr ⟨hop, ?_⟩⟩
        simp only [State.probeSucceeded, State.spent, Attempt.outcome, hok, hmode]
        rfl

/-- The state after these failed attempts, back at the key id byte write (R163). -/
def State.afterFailed (s : State) (failed : List Attempt) : State :=
  { s with
    bus := s.bus ++ failed.flatMap (Attempt.traffic s.address s.key s.abyte)
    conf := failed.foldl Attempt.confAfter s.conf
    rt := failed.foldl (fun _ a => a.outcome s.key s.abyte) s.rt
    att := s.att + BitVec.ofNat 4 failed.length }

theorem State.afterFailed_nil (s : State) : s.afterFailed [] = s := by
  simp [State.afterFailed]

theorem State.afterFailed_cons (s : State) (a : Attempt) (failed : List Attempt) :
    s.afterFailed (a :: failed) = (s.afterFailed [a]).afterFailed failed := by
  have hcount : BitVec.ofNat 4 (failed.length + 1) = 1#4 + BitVec.ofNat 4 failed.length := by
    rw [Nat.add_comm, BitVec.ofNat_add]
  simp [State.afterFailed, BitVec.add_assoc, hcount]

/-- A failed attempt that is not the tenth comes back to the key id byte write. -/
theorem drives_retried {s : State} {a : Attempt} (h : s.AtAttempt) (hfails : s.Fails a) (hatt : s.att.toNat + 1 < 10) :
    Drives s (a.retried s) (s.afterFailed [a]) := by
  obtain ⟨hrun, hfailed⟩ := drives_failed h hfails
  obtain ⟨hf, hd, habyte⟩ := h
  have hback : Drives s (a.retried s) _ := hrun.trans ((drives_count hfailed hatt).cons (drives_backoff rfl))
  refine hback.congr ?_
  simp [State.delayOver, State.startRT, State.spent, State.afterFailed, hf, hd, habyte]

theorem drives_all_retried {s : State} {failed : List Attempt} (h : s.AtAttempt) (hfails : ∀ a ∈ failed, s.Fails a)
    (hatt : s.att.toNat + failed.length < 10) :
    Drives s (failed.flatMap (·.retried s)) (s.afterFailed failed) := by
  induction failed generalizing s with
  | nil => exact .congr (.refl s) s.afterFailed_nil.symm
  | cons a failed ih =>
    rw [List.length_cons] at hatt
    have hsucc : (s.att + 1#4).toNat = s.att.toNat + 1 := toNat_succ_of_lt_ten (by omega)
    have hfirst := drives_retried h (hfails a List.mem_cons_self) (by omega)
    have hrest := ih (s := s.afterFailed [a]) h (fun b hb => hfails b (List.mem_cons_of_mem a hb))
      (by change (s.att + 1#4).toNat + _ < 10; omega)
    rw [State.afterFailed_cons]
    exact hfirst.trans hrest

/-- Ten failed attempts: the last one gives up. -/
theorem drives_all_failed {s : State} {failed : List Attempt} {last : Attempt} (h : s.AtAttempt)
    (hfails : ∀ a ∈ failed ++ [last], s.Fails a) (hzero : s.att = 0#4) (hlength : failed.length = 9) :
    Drives s (failed.flatMap (·.retried s) ++ last.inputs s ++ [.quiet, .quiet])
      { (s.afterFailed failed).spent last with
        att := 10#4
        verified := if s.op = Op.verify then false else s.verified
        rsp := ⟨true, .done, false, false, 0#3, 0#8⟩
        fsm := .idle } := by
  have hretried := drives_all_retried h (fun a ha => hfails a (List.mem_append_left _ ha)) (by simp [hzero, hlength])
  obtain ⟨hlast, hfailed⟩ := drives_failed (s := s.afterFailed failed) h (hfails last (by simp))
  have hatt : ((s.afterFailed failed).spent last).att.toNat + 1 = 10 := by
    simp [State.spent, State.afterFailed, hzero, hlength]
  exact (hretried.trans hlast).trans ((drives_give_up hfailed hatt).cons (drives_present _))

/-- Fewer than ten failed attempts, and then a round trip that completes. -/
theorem drives_until_completed {s : State} {failed : List Attempt} (h : s.AtAttempt)
    (hfails : ∀ a ∈ failed, s.Fails a) (hzero : s.att = 0#4) (hlength : failed.length < 10) (hact : s.act ≠ .press)
    (n : Nat) (c : Byte) :
    Drives s (failed.flatMap (·.retried s) ++ Attempt.inputs ⟨n, .confirmed c⟩ s)
      { s.committing c with
        att := BitVec.ofNat 4 failed.length
        conf := c
        rt := Attempt.outcome s.key s.abyte ⟨n, .confirmed c⟩
        bus := s.bus ++ (failed ++ [(⟨n, .confirmed c⟩ : Attempt)]).flatMap (Attempt.traffic s.address s.key s.abyte)
        fsm := .rtEnd } := by
  have hretried := drives_all_retried h hfails (by simpa [hzero] using hlength)
  obtain ⟨hf, hd, -⟩ := h
  have hlast := drives_completed (s := s.afterFailed failed) hf hd (fun hpress => absurd hpress hact) n c
  refine (hretried.trans hlast).congr ?_
  simp [State.afterFailed, State.committing, State.spent, Attempt.confAfter, hzero]

/-! ## The commands -/

/-- Settles O51. -/
theorem keyactionRun : Obligations.KeyactionRun := by
  unfold Obligations.KeyactionRun
  intro s k a l n c i rest hf hv hd hroom ab v
  have htrip := drives_completed (s := s.started .keyaction k a l) rfl hd hroom n c
  have hend := htrip.trans ((drives_single_finished rfl (.inl rfl) rfl).cons (drives_present _))
  have hlength : (Attempt.inputs ⟨n, .confirmed c⟩ s).length = n * failedKeyWriteSteps s + 4 := by
    simp [Attempt.inputs, answeredFrame, length_failedKeyWrites]
  refine (((drives_keyaction hf hv k a l).cons hend).run_eq i rest ?_ ?_).trans ?_
  · change (_ :: (Attempt.inputs _ s ++ _)).length = _
    simp only [List.length_cons, List.length_append, hlength, List.length_nil]
    omega
  · change _ :: (Attempt.inputs _ s ++ _) ++ _ = _
    simp [Attempt.inputs]
  · simp [State.started, State.committing, State.spent, Attempt.confAfter, Attempt.outcome, Attempt.traffic, hf, v,
      ab] <;> rfl

theorem encode_releaseall : encodeActionByte 0#8 .releaseAll true = 0x73#8 := by decide

theorem encode_probe : encodeActionByte 0#8 .test false = 0x81#8 := by decide

/-- Settles O53. -/
theorem releaseallRun : Obligations.ReleaseallRun := by
  unfold Obligations.ReleaseallRun
  intro s aborted n c i rest hf hv hd hlength haborted last inputs v
  have htrip := drives_until_completed (s := { s.started .releaseall 0#8 .releaseAll true with att := 0#4 })
    ⟨rfl, hd, rfl⟩ (fun a ha => .inl ⟨.inl rfl, haborted a ha⟩) rfl hlength (by rintro ⟨⟩) n c
  have hend := htrip.trans ((drives_loop_finished rfl (.inl ⟨rfl, rfl⟩) rfl).cons (drives_present _))
  refine ((drives_releaseall hf hv).cons hend i rest).trans ?_
  simp [State.started, State.committing, Attempt.outcome, commitPressed, encode_releaseall, hf, v, last]

/-- Settles O54. -/
theorem kbdenRun : Obligations.KbdenRun := by
  unfold Obligations.KbdenRun
  intro s aborted n c i rest hf hv hd hlength haborted last inputs v switch
  have htrip := drives_until_completed (s := { s.started .kbden 0#8 .test false with att := 0#4 })
    ⟨rfl, hd, rfl⟩ (fun a ha => .inl ⟨.inr rfl, haborted a ha⟩) rfl hlength (by rintro ⟨⟩) n c
  have hend := htrip.trans ((drives_loop_finished rfl (.inr ⟨rfl, rfl⟩) rfl).cons (drives_present _))
  refine ((drives_kbden hf hv).cons hend i rest).trans ?_
  simp [State.started, State.committing, Attempt.outcome, commitPressed, encode_probe, hf, v, last, switch]

theorem Attempt.confAfter_of_aborts {a : Attempt} (ha : a.aborts = true) (conf : Byte) : a.confAfter conf = conf := by
  obtain ⟨n, ending⟩ := a
  cases ending with
  | writeError | readError => rfl
  | confirmed c => simp [Attempt.aborts] at ha

theorem foldl_confAfter_of_aborts {attempts : List Attempt} (h : ∀ a ∈ attempts, a.aborts = true) (conf : Byte) :
    attempts.foldl Attempt.confAfter conf = conf := by
  induction attempts with
  | nil => rfl
  | cons a attempts ih =>
    rw [List.foldl_cons, Attempt.confAfter_of_aborts (h a List.mem_cons_self)]
    exact ih fun b hb => h b (List.mem_cons_of_mem a hb)

/-- Ten aborted attempts of RELEASEALL or KBDEN, from the state its word leads to. -/
theorem drives_ten_aborted {s : State} {aborted : List Attempt} {last : Attempt} (h : s.AtAttempt)
    (hop : s.op = .releaseall ∨ s.op = .kbden) (haborts : ∀ a ∈ aborted ++ [last], a.aborts = true)
    (hzero : s.att = 0#4) (hlength : aborted.length = 9) :
    Drives s (aborted.flatMap (·.retried s) ++ last.inputs s ++ [.quiet, .quiet])
      { s with
        att := 10#4
        rt := ⟨false, false, 0#3⟩
        bus := s.bus ++ (aborted ++ [last]).flatMap (Attempt.traffic s.address s.key s.abyte)
        rsp := ⟨true, .done, false, false, 0#3, 0#8⟩
        fsm := .idle } := by
  have hlast := haborts last (by simp)
  have hconf := foldl_confAfter_of_aborts haborts s.conf
  rw [List.foldl_append] at hconf
  have hverify : s.op ≠ .verify := by rcases hop with hop | hop <;> simp [hop]
  refine (drives_all_failed h (fun a ha => .inl ⟨hop, haborts a ha⟩) hzero hlength).congr ?_
  simpa [State.afterFailed, State.spent, Attempt.outcome_of_aborts hlast, hverify] using hconf

/-- Settles O55: both commands start with `att` = 0 and travel to the same answer. -/
theorem tenAbortedAttemptsAnswerFalse : Obligations.TenAbortedAttemptsAnswerFalse := by
  unfold Obligations.TenAbortedAttemptsAnswerFalse
  intro s w aborted last i rest hf hv hd hw hlength haborts
  rcases hw with rfl | rfl
  · have hloop := drives_ten_aborted (s := { s.started .releaseall 0#8 .releaseAll true with att := 0#4 })
      ⟨rfl, hd, rfl⟩ (.inl rfl) haborts rfl hlength
    have hrun := (drives_releaseall hf hv).cons hloop
    exact ⟨_, hrun i rest, rfl, rfl, rfl, rfl, rfl, rfl, rfl⟩
  · have hloop := drives_ten_aborted (s := { s.started .kbden 0#8 .test false with att := 0#4 })
      ⟨rfl, hd, rfl⟩ (.inr rfl) haborts rfl hlength
    have hrun := (drives_kbden hf hv).cons hloop
    exact ⟨_, hrun i rest, rfl, rfl, rfl, rfl, rfl, rfl, rfl⟩

end Sys2Proof.Machine
end

