-- ==== Sys2Proof/Proofs/VerifyRuns.lean ====
section
/-! PROOF. VERIFY from its word to its response (41_transport_engine.md section 4): the identity read loop, then the probes, which
are a bounded loop of round trips. -/

namespace Sys2Proof.Machine

/-! ## The identity read -/

theorem State.readResult_vRd_none_again {s : State} (hf : s.fsm = .vRd) (hatt : s.att.toNat + 1 < 10) (addr : Addr) :
    s.readResult addr none = { s with
      bus := s.bus ++ [BusEvent.read addr none], att := s.att + 1#4, fsm := .vBk
      delay := s.params.backoffVerifyRead } := by
  simp only [State.readResult, hf, hatt, if_true]

theorem State.readResult_vRd_none_giveUp {s : State} (hf : s.fsm = .vRd) (hatt : s.att.toNat + 1 = 10) (addr : Addr) :
    s.readResult addr none = { s with
      bus := s.bus ++ [BusEvent.read addr none], att := 10#4
      verified := false }.answered ⟨false, .done, false, false, 0#3, 0#8⟩ := by
  simp only [State.readResult, hf, hatt, lt_irrefl, if_false, State.answered]

theorem State.readResult_vRd_identity {s : State} (hf : s.fsm = .vRd) (addr : Addr) :
    s.readResult addr (some 0x82#8) = { s with
      bus := s.bus ++ [BusEvent.read addr (some 0x82#8)], conf := 0x82#8, verified := true, att := 0#4, key := 0#8
      act := .test, led := false, abyte := encodeActionByte 0#8 .test false, fsm := .kaWk } := by
  simp only [State.readResult, hf, if_true]

theorem State.readResult_vRd_other {s : State} (hf : s.fsm = .vRd) (addr : Addr) {b : Byte} (hb : b ≠ 0x82#8) :
    s.readResult addr (some b) = { s with
      bus := s.bus ++ [BusEvent.read addr (some b)], conf := b
      verified := false }.answered ⟨false, .done, false, false, 0#3, 0#8⟩ := by
  simp only [State.readResult, hf, hb, if_false, State.answered]

/-- An answer to the identity read is one input. -/
theorem drives_identity_byte {s t : State} (hf : s.fsm = .vRd) {b : Byte}
    (ht : ∀ rest, (s.withInputs (.done false b :: rest)).readResult s.address (some b) =
      t.withInputs (.done false b :: rest)) : Drives s [.done false b] t := by
  refine .single fun rest => ?_
  rw [step_of_read rfl (.inl ((s.withInputs_fsm _).trans hf)), exec_busread_of_byte rfl, advanceOutcome]
  exact congrArg (fun u => Host.Outcome.next u.advance) (ht rest)

theorem drives_identity_error {s t : State} (hf : s.fsm = .vRd)
    (ht : ∀ rest, (s.withInputs (.done true 0#8 :: rest)).readResult s.address none =
      t.withInputs (.done true 0#8 :: rest)) : Drives s [.done true 0#8] t := by
  refine .single fun rest => ?_
  rw [step_of_read rfl (.inl ((s.withInputs_fsm _).trans hf)), exec_busread_of_error rfl, advanceOutcome]
  exact congrArg (fun u => Host.Outcome.next u.advance) (ht rest)

/-- A failed identity read that is not the tenth is counted, and the read is done again (R132, R136). -/
theorem drives_failed_identity_read {s : State} (hf : s.fsm = .vRd) (hd : s.delay = 0) (hatt : s.att.toNat + 1 < 10) :
    Drives s (failedIdentityRead s)
      { s with bus := s.bus ++ [BusEvent.read s.address none], att := s.att + 1#4 } := by
  have herror : Drives s [.done true 0#8] { s with
      bus := s.bus ++ [BusEvent.read s.address none], att := s.att + 1#4, fsm := .vBk
      delay := s.params.backoffVerifyRead } :=
    drives_identity_error hf fun _ => State.readResult_vRd_none_again (by exact hf) (by exact hatt) s.address
  refine herror.cons (.congr (drives_backoff rfl) ?_)
  simp only [State.delayOver, hf, hd]

theorem length_failedIdentityReads (s : State) (j : Nat) :
    (repeated j (failedIdentityRead s)).length = j * (s.params.backoffVerifyRead + 2) := by
  simp [length_repeated, failedIdentityRead]

/-- The identity read loop after this many failures, at the read. -/
def State.afterReadErrors (s : State) (j : Nat) : State :=
  { s with
    bus := s.bus ++ List.replicate j (BusEvent.read s.address none)
    att := s.att + BitVec.ofNat 4 j }

theorem State.afterReadErrors_succ (s : State) (j : Nat) :
    s.afterReadErrors (j + 1) = (s.afterReadErrors 1).afterReadErrors j := by
  have hcount : BitVec.ofNat 4 (j + 1) = 1#4 + BitVec.ofNat 4 j := by rw [Nat.add_comm, BitVec.ofNat_add]
  simp [State.afterReadErrors, BitVec.add_assoc, hcount, List.replicate_succ]

theorem drives_failed_identity_reads {s : State} (hf : s.fsm = .vRd) (hd : s.delay = 0) (j : Nat)
    (hatt : s.att.toNat + j < 10) : Drives s (repeated j (failedIdentityRead s)) (s.afterReadErrors j) := by
  induction j generalizing s with
  | zero => exact .congr (.refl s) (by simp [State.afterReadErrors])
  | succ j ih =>
    have hsucc : (s.att + 1#4).toNat = s.att.toNat + 1 := toNat_succ_of_lt_ten (by omega)
    have hrest := ih (s := s.afterReadErrors 1) hf hd (by change (s.att + 1#4).toNat + j < 10; omega)
    rw [repeated_succ, State.afterReadErrors_succ]
    exact (drives_failed_identity_read hf hd (by omega)).trans hrest

/-- VERIFY at its identity read, after fewer than ten failures. -/
theorem drives_reading {s : State} (hf : s.fsm = .idle) (hd : s.delay = 0) {j : Nat} (hj : j < 10) :
    Drives s (.cmd 0x1000#16 :: repeated j (failedIdentityRead s)) (s.reading.afterReadErrors j) :=
  (drives_verify hf).cons (drives_failed_identity_reads (s := s.reading) rfl hd j (by simpa [State.reading] using hj))

/-- Settles O56: the tenth error and another byte than the identity both go straight to the answer. -/
theorem failedIdentityReadDisarms : Obligations.FailedIdentityReadDisarms := by
  unfold Obligations.FailedIdentityReadDisarms
  intro s i rest hf hd failed
  constructor
  · have hend : Drives (s.reading.afterReadErrors 9) [.done true 0#8] ({ s.reading.afterReadErrors 9 with
        bus := (s.reading.afterReadErrors 9).bus ++ [BusEvent.read s.address none], att := 10#4
        verified := false }.answered ⟨false, .done, false, false, 0#3, 0#8⟩) :=
      drives_identity_error rfl fun _ => State.readResult_vRd_none_giveUp rfl rfl s.address
    have hrun := (drives_reading hf hd (j := 9) (by decide)).trans (hend.cons (drives_present _))
    refine (hrun.run_eq i rest ?_ ?_).trans ?_
    · simp only [List.length_append, List.length_cons, List.length_nil, length_failedIdentityReads]
      omega
    · simp
    · simp [State.reading, State.afterReadErrors, hf, failed]
  · intro j b hj hb
    have hend : Drives (s.reading.afterReadErrors j) [.done false b] ({ s.reading.afterReadErrors j with
        bus := (s.reading.afterReadErrors j).bus ++ [BusEvent.read s.address (some b)], conf := b
        verified := false }.answered ⟨false, .done, false, false, 0#3, 0#8⟩) :=
      drives_identity_byte rfl fun _ => State.readResult_vRd_other rfl s.address hb
    have hrun := (drives_reading hf hd hj).trans (hend.cons (drives_present _))
    refine (hrun.run_eq i rest ?_ ?_).trans ?_
    · simp only [List.length_append, List.length_cons, List.length_nil, length_failedIdentityReads]
      omega
    · simp
    · simp [State.reading, State.afterReadErrors, hf, failed]

/-! ## The probes -/

/-- VERIFY with the identity read, at its first probe (R133). -/
def State.probing (s : State) (j : Nat) : State :=
  { s.started .verify 0#8 .test false with
    att := 0#4
    verified := true
    conf := 0x82#8
    abyte := 0x81#8
    bus := s.bus ++ List.replicate j (BusEvent.read s.address none) ++ [BusEvent.read s.address (some 0x82#8)] }

theorem State.atAttempt_probing {s : State} (hd : s.delay = 0) (j : Nat) : (s.probing j).AtAttempt :=
  ⟨rfl, hd, encode_probe.symm⟩

/-- VERIFY reads the identity and goes on with its probes. -/
theorem drives_probing {s t : State} {j : Nat} {inputs : List Input} (hf : s.fsm = .idle) (hd : s.delay = 0)
    (hj : j < 10) (hprobes : Drives (s.probing j) inputs t) :
    Drives s (.cmd 0x1000#16 :: (repeated j (failedIdentityRead s) ++ .done false 0x82#8 :: inputs)) t := by
  have hfound : Drives (s.reading.afterReadErrors j) [.done false 0x82#8] (s.probing j) :=
    drives_identity_byte rfl fun _ => State.readResult_vRd_identity rfl s.address
  exact (drives_reading hf hd hj).trans (hfound.cons hprobes)

/-- Settles O57. -/
theorem successfulVerifyArms : Obligations.SuccessfulVerifyArms := by
  unfold Obligations.SuccessfulVerifyArms
  intro s j failed n c i rest hf hd hj hlength hfails haccepts last inputs v
  have htrip := drives_until_completed (State.atAttempt_probing hd j)
    (fun a ha => .inr ⟨rfl, rfl, rfl, rfl, hfails a ha⟩) rfl hlength (by rintro ⟨⟩) n c
  have hend := htrip.trans ((drives_probe_finished rfl rfl (by exact haccepts)).cons (drives_present _))
  refine (drives_probing hf hd hj hend i rest).trans ?_
  simp [State.probing, State.started, State.committing, Attempt.outcome, commitPressed, hf, v, last]

/-- Settles O58. -/
theorem tenFailedProbesDisarm : Obligations.TenFailedProbesDisarm := by
  unfold Obligations.TenFailedProbesDisarm
  intro s j failed last i rest hf hd hj hlength hfails inputs
  have hloop := drives_all_failed (State.atAttempt_probing hd j)
    (fun a ha => .inr ⟨rfl, rfl, rfl, rfl, hfails a ha⟩) rfl hlength
  refine (drives_probing hf hd hj hloop i rest).trans ?_
  simp [State.probing, State.started, State.afterFailed, State.spent, hf]

end Sys2Proof.Machine
end

