-- ==== Sys2Proof/Proofs/DerivedOperations.lean ====
section
/-! PROOF. PRESS and RELEASE as KEYACTIONs (42_derived_ops.md sections 1 and 3). Once a single round trip has started, the
command code is only looked at to answer it, and there the three commands have one row: so two runs that differ in `op` stay
so, step by step, until a row overwrites `op` in both. -/

namespace Sys2Proof.Machine

/-! ## Press, then release -/

/-- Settles O48: `removeFirst` takes one occurrence, the one that was appended if there was no other. -/
theorem pressThenReleaseKeepsTheCount : Obligations.PressThenReleaseKeepsTheCount := by
  unfold Obligations.PressThenReleaseKeepsTheCount
  intro xs k
  have hcommit : removeFirst (commitPressed xs .press k) k = (xs ++ [k]).erase k := removeFirst_eq_erase _ k
  rw [hcommit]
  refine ⟨?_, fun j hj => ?_, fun hk => ?_⟩
  · simp [List.count_erase_self]
  · simp [List.count_erase_of_ne hj, hj.symm]
  · simp [List.erase_append_right _ hk]

/-! ## Rows that keep the command code -/

/-- The commands that run one round trip (42_derived_ops.md section 1). -/
def Op.IsSingle (op : Op) : Prop := op ∈ [Op.keyaction, .press, .release]

theorem State.afterWrite_overlay (s : State) (port : Input) (op : Op) (err : Bool) :
    (s.overlay port op).afterWrite err = (s.afterWrite err).overlay port op := by
  unfold State.afterWrite
  rw [s.overlay_fsm]
  cases s.fsm <;> cases err <;> rfl

theorem State.busWrite_overlay (s : State) (op : Op) (addr : Addr) (data : Byte) :
    (s.overlay s.port op).busWrite addr data = (s.busWrite addr data).overlay s.port op := by
  unfold State.busWrite
  rw [show (s.overlay s.port op).port = s.port from rfl]
  cases s.port with
  | done err b => exact (s.record (.write addr data err)).afterWrite_overlay (.done err b) op err
  | _ => rfl

theorem State.judgeIdentity_overlay (s : State) (port : Input) (op : Op) :
    (s.overlay port op).judgeIdentity = s.judgeIdentity.overlay port op := by
  unfold State.judgeIdentity
  rw [show (s.overlay port op).conf = s.conf from rfl]
  split <;> rfl

theorem State.afterRead_overlay (s : State) (port : Input) (op : Op) (answer : Option Byte) :
    (s.overlay port op).afterRead answer = (s.afterRead answer).overlay port op := by
  unfold State.afterRead
  rw [s.overlay_fsm]
  cases answer with
  | none =>
    cases s.fsm
    case vRd => exact s.failedAttempt_overlay port op (fun _ => rfl) (fun _ => rfl)
    all_goals rfl
  | some b =>
    cases s.fsm
    case vRd => exact { s with conf := b }.judgeIdentity_overlay port op
    all_goals rfl

theorem State.readAnswered_overlay (s : State) (port : Input) (op : Op) (addr : Addr) (answer : Option Byte) :
    (s.overlay port op).readAnswered addr answer = (s.readAnswered addr answer).overlay port op :=
  (s.record (.read addr answer)).afterRead_overlay port op answer

theorem State.busRead_overlay (s : State) (op : Op) (addr : Addr) :
    (s.overlay s.port op).busRead addr = (s.busRead addr).overlay s.port op := by
  unfold State.busRead
  rw [show (s.overlay s.port op).port = s.port from rfl]
  cases s.port with
  | done err b => cases err <;> exact s.readAnswered_overlay (.done _ b) op addr _
  | _ => rfl

/-- What an action does under another code of a single round trip: the same, or the same but for that code. -/
def State.PassesOp (s : State) (f : State → Host.Outcome State Fault Refusal) : Prop :=
  (∀ op, f (s.overlay s.port op) = f s) ∨
  ∀ op, op.IsSingle → f (s.overlay s.port op) = overlayOutcome s.port op (f s)

/-- A guarded command overwrites the code when it runs, and leaves it when it is not seen or the engine is unarmed. -/
theorem State.passesOp_command (s : State) {run : State → State}
    (hrun : ∀ (t : State) (op : Op), run (t.overlay t.port op) = run t) :
    s.PassesOp fun t => .next (t.onIdle fun u => u.guarded run) := by
  by_cases hf : s.fsm = .idle
  · cases hv : s.verified with
    | true =>
      refine .inl fun op => congrArg Host.Outcome.next ?_
      rw [State.onIdle_of_idle s _ hf, State.onIdle_of_idle (s.overlay s.port op) _ hf,
        State.guarded_of_verified s.accept _ hv, State.guarded_of_verified (s.overlay s.port op).accept _ hv]
      exact hrun s.accept op
    | false =>
      refine .inr fun op _ => congrArg Host.Outcome.next ?_
      rw [State.onIdle_of_idle s _ hf, State.onIdle_of_idle (s.overlay s.port op) _ hf,
        State.guarded_of_unverified s.accept _ hv, State.guarded_of_unverified (s.overlay s.port op).accept _ hv]
      rfl
  · refine .inr fun op _ => congrArg Host.Outcome.next ?_
    rw [State.onIdle_of_busy s _ hf, State.onIdle_of_busy (s.overlay s.port op) _ hf]

theorem exec_rsp_of_not_resp {s : State} (hf : s.fsm ≠ .resp) (status : Status) (flag ok : Bool) (err : BitVec 3)
    (confirm : Byte) : exec (.rsp status flag ok err confirm) s = .next s :=
  if_neg hf

theorem State.passesOp_exec (s : State) (i : Instr) : s.PassesOp (exec i) := by
  cases i with
  | verify =>
    by_cases hf : s.fsm = .idle
    · refine .inl fun op => ?_
      rw [exec_verify_of_idle hf, exec_verify_of_idle ((s.overlay_fsm s.port op).trans hf)]
      rfl
    · refine .inr fun op _ => congrArg Host.Outcome.next ?_
      rw [State.onIdle_of_busy s _ hf, State.onIdle_of_busy (s.overlay s.port op) _ hf]
  | keyaction | press | release | releaseall | kbden => exact s.passesOp_command fun _ _ => rfl
  | encode | validate => exact .inr fun _ _ => rfl
  | buswrite | frame | actionByteTest | actionBytePress | actionByteRelease | actionByteReleaseAll =>
    exact .inr fun op _ => congrArg Host.Outcome.next (s.busWrite_overlay op _ _)
  | busread addr => exact .inr fun op _ => congrArg Host.Outcome.next (s.busRead_overlay op addr)
  | confirm | identity => exact .inr fun op _ => congrArg Host.Outcome.next (s.readAnswered_overlay s.port op _ _)
  | rsp st f o e c =>
    by_cases hf : s.fsm = .resp
    · refine .inr fun op _ => ?_
      rw [exec_rsp_of_resp hf, exec_rsp_of_resp ((s.overlay_fsm s.port op).trans hf)]
      rfl
    · refine .inr fun op _ => ?_
      rw [exec_rsp_of_not_resp hf, exec_rsp_of_not_resp (s := s.overlay s.port op) hf]
      rfl

/-- The three commands of a single round trip have one row in `RT_END` (R140). -/
theorem Op.IsSingle.cases {op : Op} (h : op.IsSingle) : op = .keyaction ∨ op = .press ∨ op = .release := by
  simpa [Op.IsSingle] using h

theorem State.passesOp_runAction {s : State} (hop : s.op.IsSingle) (a : Action) :
    s.PassesOp fun t => t.runAction a := by
  cases a with
  | reset => exact .inl fun _ => rfl
  | idle => exact .inr fun _ _ => rfl
  | word w =>
    simp only [State.runAction, State.runWord]
    cases decode w with
    | ok i => exact s.passesOp_exec i
    | error e => exact .inr fun _ _ => rfl
  | delay => exact .inr fun op _ => congrArg Host.Outcome.next (s.delayStep_overlay s.port op)
  | validate => exact .inr fun op _ => s.validateStep_overlay s.port op
  | decide =>
    refine .inr fun op hop' => ?_
    change (s.overlay s.port op).roundTripEnd = overlayOutcome s.port op s.roundTripEnd
    rw [State.roundTripEnd_of_single hop.cases,
      State.roundTripEnd_of_single (s := s.overlay s.port op) hop'.cases, State.endSingle_overlay]
    rfl

/-! ## Steps and runs that agree but for the command code -/

theorem SameOutcomeButOp.refl (o : Host.Outcome State Fault Refusal) : SameOutcomeButOp o o := by
  cases o with
  | next s => exact ⟨rfl, .inl rfl⟩
  | fault | refused => rfl

theorem sameButOp_advance_overlay {s : State} {op : Op} (port : Input) (hop : op.IsSingle) (hs : s.op.IsSingle) :
    SameButOp (s.overlay port op).advance s.advance := by
  unfold State.advance
  rw [show (s.overlay port op).script = s.script from rfl]
  cases s.script <;> exact ⟨rfl, .inr ⟨hop, hs⟩⟩

/-- An outcome that keeps the code `op'`, taken with the code `op` in its place. -/
theorem sameOutcomeButOp_overlay {o : Host.Outcome State Fault Refusal} {port : Input} {op op' : Op}
    (hkeeps : o = overlayOutcome port op' o) (hop : op.IsSingle) (hop' : op'.IsSingle) :
    SameOutcomeButOp (advanceOutcome (overlayOutcome port op o)) (advanceOutcome o) := by
  cases o with
  | next s =>
    have hs : s.op = op' := congrArg State.op (Host.Outcome.next.inj hkeeps)
    exact sameButOp_advance_overlay port hop (hs ▸ hop')
  | fault | refused => rfl

theorem sameButOp_step {s t : State} (h : SameButOp s t) : SameOutcomeButOp (step s) (step t) := by
  obtain ⟨hst, hop | ⟨hs, ht⟩⟩ := h
  · rw [hst, hop]
    exact .refl (step t)
  · rw [show s = t.overlay t.port s.op from hst]
    change SameOutcomeButOp (advanceOutcome ((t.overlay t.port s.op).runAction t.action))
      (advanceOutcome (t.runAction t.action))
    rcases State.passesOp_runAction ht t.action with hsame | hpasses
    · have hnext : (t.overlay t.port s.op).runAction t.action = t.runAction t.action := hsame s.op
      rw [hnext]
      exact .refl _
    · have hnext : (t.overlay t.port s.op).runAction t.action = overlayOutcome t.port s.op (t.runAction t.action) :=
        hpasses s.op hs
      rw [hnext]
      exact sameOutcomeButOp_overlay (hpasses t.op ht) hs ht

/-- A run whose first steps agree but for the code agrees so if the rest of it does. -/
theorem sameOutcomeButOp_run_succ {s t : State} {n : Nat} (hstep : SameOutcomeButOp (step s) (step t))
    (hrest : ∀ s' t' : State, SameButOp s' t' → SameOutcomeButOp (run n s') (run n t')) :
    SameOutcomeButOp (run (n + 1) s) (run (n + 1) t) := by
  change SameOutcomeButOp (core.step s) (core.step t) at hstep
  simp only [run, Host.Core.run]
  cases hs : core.step s <;> cases ht : core.step t <;> rw [hs, ht] at hstep
  case next.next s' t' => exact hrest s' t' hstep
  case fault.fault | refused.refused => exact hstep
  all_goals exact False.elim hstep

theorem sameButOp_run (n : Nat) {s t : State} (h : SameButOp s t) : SameOutcomeButOp (run n s) (run n t) := by
  induction n generalizing s t with
  | zero => exact h
  | succ n ih => exact sameOutcomeButOp_run_succ (sameButOp_step h) fun _ _ => ih

/-! ## The words of PRESS, RELEASE and KEYACTION -/

/-- The word `w` is a command that latches `op` and starts one round trip with these operands when the engine is armed. -/
def StartsRoundTrip (w : BitVec 16) (op : Op) (key : Byte) (action : ActionKind) : Prop :=
  op.IsSingle ∧ ∃ i, decode (.cmd w) = .ok i ∧ i ≠ .verify ∧
    ∀ s : State, s.fsm = .idle → s.verified = true → exec i s = .next (s.started op key action true)

theorem startsRoundTrip_press (k : Byte) : StartsRoundTrip (packCmd 3#4 false 0#2 k) .press k .press :=
  ⟨by simp [Op.IsSingle], .press k, decodeOfEncodeIsTheInstruction (.press k), nofun,
    fun s hf hv => have ⟨_, hpress, _⟩ := armedCommandsStartTheirRoundTrip s hf hv
      hpress k⟩

theorem startsRoundTrip_release (k : Byte) : StartsRoundTrip (packCmd 4#4 false 0#2 k) .release k .release :=
  ⟨by simp [Op.IsSingle], .release k, decodeOfEncodeIsTheInstruction (.release k), nofun,
    fun s hf hv => have ⟨_, _, hrelease, _⟩ := armedCommandsStartTheirRoundTrip s hf hv
      hrelease k⟩

theorem startsRoundTrip_keyaction (k : Byte) (a : ActionKind) :
    StartsRoundTrip (packCmd 2#4 true a.code k) .keyaction k a :=
  ⟨by simp [Op.IsSingle], .keyaction k a true, decodeOfEncodeIsTheInstruction (.keyaction k a true), nofun,
    fun s hf hv => have ⟨hkeyaction, _⟩ := armedCommandsStartTheirRoundTrip s hf hv
      hkeyaction k a true⟩

theorem StartsRoundTrip.step_of_armed {w : BitVec 16} {op : Op} {key : Byte} {action : ActionKind}
    (h : StartsRoundTrip w op key action) {s : State} (hf : s.fsm = .idle) (hv : s.verified = true) :
    step (s.overlay (.cmd w) s.op) = .next ((s.started op key action true).overlay (.cmd w) op).advance := by
  obtain ⟨-, i, hd, -, hexec⟩ := h
  exact step_of_idle_command (s := s.overlay (.cmd w) s.op) hf rfl hd (hexec _ hf hv)

theorem StartsRoundTrip.step_of_unarmed {w : BitVec 16} {op : Op} {key : Byte} {action : ActionKind}
    (h : StartsRoundTrip w op key action) {s : State} (hf : s.fsm = .idle) (hv : s.verified = false) :
    step (s.overlay (.cmd w) s.op) =
      .next ((s.answered ⟨false, .notVerified, false, false, 0#3, 0#8⟩).overlay (.cmd w) s.op).advance := by
  obtain ⟨-, i, hd, hne, -⟩ := h
  obtain ⟨-, hcommand⟩ := idleTransitions (s.overlay (.cmd w) s.op) hf
  obtain ⟨-, -, hunarmed, -⟩ := hcommand w rfl
  exact hunarmed hv i hd hne

/-- The first step: an armed engine starts the same round trip under another code, an unarmed one answers the same, and a
busy one does not see the word. -/
theorem StartsRoundTrip.sameOutcomeButOp_step {w w' : BitVec 16} {op op' : Op} {key : Byte} {action : ActionKind}
    (h : StartsRoundTrip w op key action) (h' : StartsRoundTrip w' op' key action) (s : State) :
    SameOutcomeButOp (step (s.overlay (.cmd w) s.op)) (step (s.overlay (.cmd w') s.op)) := by
  by_cases hf : s.fsm = .idle
  · cases hv : s.verified with
    | true =>
      rw [h.step_of_armed hf hv, h'.step_of_armed hf hv, State.advance_overlay _ (.cmd w') .quiet]
      exact sameButOp_advance_overlay (s := (s.started op' key action true).overlay .quiet op') (.cmd w) h.1 h'.1
    | false =>
      rw [h.step_of_unarmed hf hv, h'.step_of_unarmed hf hv, State.advance_overlay _ (.cmd w) (.cmd w')]
      exact .refl _
  · have hquiet (w : BitVec 16) : step (s.overlay (.cmd w) s.op) = step (s.overlay .quiet s.op) :=
      busyEngineDoesNotReadTheCommandPort s w hf
    rw [hquiet w, hquiet w']
    exact .refl _

/-- Settles O52: the first step starts the same round trip, and every later one keeps the agreement. -/
theorem pressAndReleaseAreKeyactions : Obligations.PressAndReleaseAreKeyactions := by
  unfold Obligations.PressAndReleaseAreKeyactions
  intro s k n
  have hrest (s' t' : State) (h : SameButOp s' t') : SameOutcomeButOp (run n s') (run n t') := sameButOp_run n h
  have hpress := (startsRoundTrip_press k).sameOutcomeButOp_step (startsRoundTrip_keyaction k .press) s
  have hrelease := (startsRoundTrip_release k).sameOutcomeButOp_step (startsRoundTrip_keyaction k .release) s
  exact ⟨sameOutcomeButOp_run_succ hpress hrest, sameOutcomeButOp_run_succ hrelease hrest⟩

end Sys2Proof.Machine
end
